-- ==== Sys2Proof/Word.lean ====
section
/-! DEFINITION. The word and byte types of CS61C CORE and the two readings of a word (spec/00_scope.md R6, R8). -/

namespace Sys2Proof

/-- One byte of memory or of the output stream (R29, R28). -/
abbrev Byte := BitVec 8

/-- A 32-bit pattern: a register, the pc, an operand, an instruction word (R6, R8). -/
abbrev Word := BitVec 32

/-- `to32(z)`: the 32-bit pattern of a mathematical integer, `z mod 2^32` (R8). -/
def to32 (z : Int) : Word := BitVec.ofInt 32 z

end Sys2Proof
end

