-- ==== Sys2Proof/Syntax.lean ====
section
/-! DEFINITION. The instruction set as syntax: one constructor per row of spec/opcode_table.json, in the table's order,
and the names of the families and formats (spec/30_encoding.md R80). -/

namespace Sys2Proof

/-- The index of a general register: a 5-bit field names all 32 and nothing else (R23). -/
abbrev RegIdx := Fin 32

/-- The eight families an opcode can select (R80). -/
inductive Family where
  | registerRegister | immediateExceptLoad | load | store | branch | upperImmediate | jumpAndLink | systemCall
  deriving DecidableEq, Repr

/-- The six field layouts (R72 to R77). -/
inductive Format where
  | R | I | S | B | U | J
  deriving DecidableEq, Repr

/-- The 32 instructions. Immediates are the raw fields of the word, not yet extended: 12 bits for the I and S formats
(R122, R123), the 13 and 21 assembled bits of a branch and a jump offset, low bit included (R124, R125), the 20 bits of
lui (R126), the 5 bits of a shift amount (R127). Bits the decoder ignores (R87) are no part of an instruction. -/
inductive Instr where
  | add (rd rs1 rs2 : RegIdx)
  | mul (rd rs1 rs2 : RegIdx)
  | sub (rd rs1 rs2 : RegIdx)
  | sll (rd rs1 rs2 : RegIdx)
  | mulh (rd rs1 rs2 : RegIdx)
  | slt (rd rs1 rs2 : RegIdx)
  | xor (rd rs1 rs2 : RegIdx)
  | div (rd rs1 rs2 : RegIdx)
  | srl (rd rs1 rs2 : RegIdx)
  | sra (rd rs1 rs2 : RegIdx)
  | or (rd rs1 rs2 : RegIdx)
  | rem (rd rs1 rs2 : RegIdx)
  | and (rd rs1 rs2 : RegIdx)
  | addi (rd rs1 : RegIdx) (imm : BitVec 12)
  | slli (rd rs1 : RegIdx) (shamt : BitVec 5)
  | slti (rd rs1 : RegIdx) (imm : BitVec 12)
  | xori (rd rs1 : RegIdx) (imm : BitVec 12)
  | srli (rd rs1 : RegIdx) (shamt : BitVec 5)
  | srai (rd rs1 : RegIdx) (shamt : BitVec 5)
  | ori (rd rs1 : RegIdx) (imm : BitVec 12)
  | andi (rd rs1 : RegIdx) (imm : BitVec 12)
  | lb (rd rs1 : RegIdx) (imm : BitVec 12)
  | lh (rd rs1 : RegIdx) (imm : BitVec 12)
  | lw (rd rs1 : RegIdx) (imm : BitVec 12)
  | sb (rs2 rs1 : RegIdx) (imm : BitVec 12)
  | sh (rs2 rs1 : RegIdx) (imm : BitVec 12)
  | sw (rs2 rs1 : RegIdx) (imm : BitVec 12)
  | beq (rs1 rs2 : RegIdx) (off : BitVec 13)
  | bne (rs1 rs2 : RegIdx) (off : BitVec 13)
  | lui (rd : RegIdx) (imm20 : BitVec 20)
  | jal (rd : RegIdx) (off : BitVec 21)
  | ecall
  deriving DecidableEq, Repr

end Sys2Proof
end

