-- ==== Sys2Proof/WellFormed.lean ====
section
/-! DEFINITION. When an instruction as syntax is one the encoding can carry. Register indices, 12-bit immediates, shift
amounts and the 20-bit immediate are bounded by their types; what is left is that an offset's low bit is 0. -/

namespace Sys2Proof

/-- An offset is even: its low bit is not encoded and is always 0 (R75, R77, R124, R125). -/
def evenOffset {n : Nat} (off : BitVec n) : Bool := !off.getLsbD 0

/-- Well-formed: the encoding of R92 has a word for the instruction with exactly these operands. -/
def Instr.wf : Instr → Bool
  | .add _ _ _ | .mul _ _ _ | .sub _ _ _ | .sll _ _ _ | .mulh _ _ _ | .slt _ _ _ | .xor _ _ _ => true
  | .div _ _ _ | .srl _ _ _ | .sra _ _ _ | .or _ _ _ | .rem _ _ _ | .and _ _ _ => true
  | .addi _ _ _ | .slli _ _ _ | .slti _ _ _ | .xori _ _ _ | .srli _ _ _ | .srai _ _ _ | .ori _ _ _ | .andi _ _ _ => true
  | .lb _ _ _ | .lh _ _ _ | .lw _ _ _ | .sb _ _ _ | .sh _ _ _ | .sw _ _ _ => true
  | .beq _ _ off => evenOffset off
  | .bne _ _ off => evenOffset off
  | .lui _ _ => true
  | .jal _ off => evenOffset off
  | .ecall => true

end Sys2Proof
end

