-- ==== Sys2Proof/Decode.lean ====
section
/-! DEFINITION. The instruction_decoder (spec/40_instruction_decoder.md), the raw bit groups of the
immediate_reconstructor (spec/41_immediate_reconstructor.md) and the encoders (spec/30_encoding.md R92). -/

namespace Sys2Proof

/-! ### Byte order -/

/-- The low n bytes of a word, least significant first (R41). -/
def leBytes (n : Nat) (v : Word) : List Byte := (List.range n).map fun i => v.extractLsb' (8 * i) 8

/-- The unsigned value of bytes listed from the lowest address: `sum over i of b[i] * 2^(8i)` (R41, R44). -/
def leValue : List Byte → Nat
  | [] => 0
  | b :: bs => b.toNat + 256 * leValue bs

/-! ### Fields (R71, R78, R101) -/

def opcodeOf (w : Word) : BitVec 7 := w.extractLsb' 0 7
def rdOf (w : Word) : RegIdx := (w.extractLsb' 7 5).toFin
def funct3Of (w : Word) : BitVec 3 := w.extractLsb' 12 3
def rs1Of (w : Word) : RegIdx := (w.extractLsb' 15 5).toFin
def rs2Of (w : Word) : RegIdx := (w.extractLsb' 20 5).toFin
def funct7Of (w : Word) : BitVec 7 := w.extractLsb' 25 7

/-! ### Immediates before extension -/

/-- The I immediate `word[31:20]` (R73, R122). -/
def rawI (w : Word) : BitVec 12 := w.extractLsb' 20 12

/-- The shift amount `word[24:20]` (R73, R127). -/
def shamtOf (w : Word) : BitVec 5 := w.extractLsb' 20 5

/-- The store offset `{word[31:25], word[11:7]}` (R74, R123). -/
def rawS (w : Word) : BitVec 12 := w.extractLsb' 25 7 ++ w.extractLsb' 7 5

/-- The branch offset `{word[31], word[7], word[30:25], word[11:8], 0}` (R75, R124). -/
def rawB (w : Word) : BitVec 13 :=
  w.extractLsb' 31 1 ++ w.extractLsb' 7 1 ++ w.extractLsb' 25 6 ++ w.extractLsb' 8 4 ++ 0#1

/-- The jump offset `{word[31], word[19:12], word[20], word[30:21], 0}` (R77, R125). -/
def rawJ (w : Word) : BitVec 21 :=
  w.extractLsb' 31 1 ++ w.extractLsb' 12 8 ++ w.extractLsb' 20 1 ++ w.extractLsb' 21 10 ++ 0#1

/-- The upper immediate `word[31:12]` (R76, R126). -/
def imm20Of (w : Word) : BitVec 20 := w.extractLsb' 12 20

/-! ### Decoding (R102, R103) -/

/-- Why a word, or a list of bytes, is no instruction. The first two are the INVALID kind (R88, R104). -/
inductive Reject where
  /-- the opcode is none of the eight of R80 -/
  | unknownOpcode
  /-- the opcode is known, its function code is not (R81 to R85) -/
  | unknownFunction
  /-- fewer than four bytes: not a word (R70; log 19) -/
  | truncated
  deriving DecidableEq, Repr

/-- The family an opcode selects (R80, R102). -/
def familyOf (op : BitVec 7) : Option Family :=
  match op with
  | 0x33#7 => some .registerRegister
  | 0x13#7 => some .immediateExceptLoad
  | 0x03#7 => some .load
  | 0x23#7 => some .store
  | 0x63#7 => some .branch
  | 0x37#7 => some .upperImmediate
  | 0x6F#7 => some .jumpAndLink
  | 0x73#7 => some .systemCall
  | _ => none

/-- The format of a family; the system-call word has none (R80, R102). -/
def Family.format : Family → Option Format
  | .registerRegister => some .R
  | .immediateExceptLoad => some .I
  | .load => some .I
  | .store => some .S
  | .branch => some .B
  | .upperImmediate => some .U
  | .jumpAndLink => some .J
  | .systemCall => none

/-- The 13 pairs of the register-register family (R81). -/
def decodeRegReg (f3 : BitVec 3) (f7 : BitVec 7) (rd rs1 rs2 : RegIdx) : Option Instr :=
  match f3, f7 with
  | 0#3, 0x00#7 => some (.add rd rs1 rs2)
  | 0#3, 0x01#7 => some (.mul rd rs1 rs2)
  | 0#3, 0x20#7 => some (.sub rd rs1 rs2)
  | 1#3, 0x00#7 => some (.sll rd rs1 rs2)
  | 1#3, 0x01#7 => some (.mulh rd rs1 rs2)
  | 2#3, 0x00#7 => some (.slt rd rs1 rs2)
  | 4#3, 0x00#7 => some (.xor rd rs1 rs2)
  | 4#3, 0x01#7 => some (.div rd rs1 rs2)
  | 5#3, 0x00#7 => some (.srl rd rs1 rs2)
  | 5#3, 0x20#7 => some (.sra rd rs1 rs2)
  | 6#3, 0x00#7 => some (.or rd rs1 rs2)
  | 6#3, 0x01#7 => some (.rem rd rs1 rs2)
  | 7#3, 0x00#7 => some (.and rd rs1 rs2)
  | _, _ => none

/-- funct3 5 of the register-immediate family: `word[31:25]` chooses (R82). -/
def decodeShiftRight (f7 : BitVec 7) (rd rs1 : RegIdx) (shamt : BitVec 5) : Option Instr :=
  match f7 with
  | 0x00#7 => some (.srli rd rs1 shamt)
  | 0x20#7 => some (.srai rd rs1 shamt)
  | _ => none

/-- The register-immediate family; slli does not look at `word[31:25]` (R82). -/
def decodeRegImm (f3 : BitVec 3) (f7 : BitVec 7) (rd rs1 : RegIdx) (imm : BitVec 12) (shamt : BitVec 5) :
    Option Instr :=
  match f3 with
  | 0#3 => some (.addi rd rs1 imm)
  | 1#3 => some (.slli rd rs1 shamt)
  | 2#3 => some (.slti rd rs1 imm)
  | 4#3 => some (.xori rd rs1 imm)
  | 5#3 => decodeShiftRight f7 rd rs1 shamt
  | 6#3 => some (.ori rd rs1 imm)
  | 7#3 => some (.andi rd rs1 imm)
  | _ => none

/-- The load family (R83). -/
def decodeLoad (f3 : BitVec 3) (rd rs1 : RegIdx) (imm : BitVec 12) : Option Instr :=
  match f3 with
  | 0#3 => some (.lb rd rs1 imm)
  | 1#3 => some (.lh rd rs1 imm)
  | 2#3 => some (.lw rd rs1 imm)
  | _ => none

/-- The store family (R84). -/
def decodeStore (f3 : BitVec 3) (rs2 rs1 : RegIdx) (imm : BitVec 12) : Option Instr :=
  match f3 with
  | 0#3 => some (.sb rs2 rs1 imm)
  | 1#3 => some (.sh rs2 rs1 imm)
  | 2#3 => some (.sw rs2 rs1 imm)
  | _ => none

/-- The branch family (R85). -/
def decodeBranch (f3 : BitVec 3) (rs1 rs2 : RegIdx) (off : BitVec 13) : Option Instr :=
  match f3 with
  | 0#3 => some (.beq rs1 rs2 off)
  | 1#3 => some (.bne rs1 rs2 off)
  | _ => none

/-- The kind a family's function codes select, with the fields its format has (R79, R103). -/
def decodeFamily (w : Word) : Family → Option Instr
  | .registerRegister => decodeRegReg (funct3Of w) (funct7Of w) (rdOf w) (rs1Of w) (rs2Of w)
  | .immediateExceptLoad => decodeRegImm (funct3Of w) (funct7Of w) (rdOf w) (rs1Of w) (rawI w) (shamtOf w)
  | .load => decodeLoad (funct3Of w) (rdOf w) (rs1Of w) (rawI w)
  | .store => decodeStore (funct3Of w) (rs2Of w) (rs1Of w) (rawS w)
  | .branch => decodeBranch (funct3Of w) (rs1Of w) (rs2Of w) (rawB w)
  | .upperImmediate => some (.lui (rdOf w) (imm20Of w))
  | .jumpAndLink => some (.jal (rdOf w) (rawJ w))
  | .systemCall => some .ecall

/-- The decoder: total on every word, INVALID by name (R103, R104). The opcode selects the family before any
format-specific field is used (R79). -/
def decode (w : Word) : Except Reject Instr :=
  match familyOf (opcodeOf w) with
  | none => .error .unknownOpcode
  | some f =>
    match decodeFamily w f with
    | none => .error .unknownFunction
    | some i => .ok i

/-- Decode the four bytes at the head of a list, lowest address first (R54), and give the rest. -/
def decodeBytes : List Byte → Except Reject (Instr × List Byte)
  | b0 :: b1 :: b2 :: b3 :: rest =>
    match decode (BitVec.ofNat 32 (leValue [b0, b1, b2, b3])) with
    | .ok i => .ok (i, rest)
    | .error r => .error r
  | _ => .error .truncated

/-- The instruction the decoder reads from a word numbered as spec/opcode_table.json numbers it: bit 0 the least
significant; bits at nbits and above are 0. -/
def decodeTableWord (nbits w : Nat) : Option Instr :=
  match decodeBytes (leBytes 4 (BitVec.ofNat 32 (w % 2 ^ nbits))) with
  | .ok (i, _) => some i
  | .error _ => none

/-! ### Encoding (R92) -/

/-- A register index as its 5-bit field. -/
def regField (r : RegIdx) : BitVec 5 := BitVec.ofFin r

/-- R format (R72, R92). -/
def encR (f7 : BitVec 7) (rs2 rs1 : RegIdx) (f3 : BitVec 3) (rd : RegIdx) (op : BitVec 7) : Word :=
  f7 ++ regField rs2 ++ regField rs1 ++ f3 ++ regField rd ++ op

/-- I format (R73, R92). -/
def encI (imm : BitVec 12) (rs1 : RegIdx) (f3 : BitVec 3) (rd : RegIdx) (op : BitVec 7) : Word :=
  imm ++ regField rs1 ++ f3 ++ regField rd ++ op

/-- S format (R74, R92). -/
def encS (imm : BitVec 12) (rs2 rs1 : RegIdx) (f3 : BitVec 3) (op : BitVec 7) : Word :=
  imm.extractLsb' 5 7 ++ regField rs2 ++ regField rs1 ++ f3 ++ imm.extractLsb' 0 5 ++ op

/-- B format; bit 0 of the offset is not encoded (R75, R92). -/
def encB (off : BitVec 13) (rs2 rs1 : RegIdx) (f3 : BitVec 3) (op : BitVec 7) : Word :=
  off.extractLsb' 12 1 ++ off.extractLsb' 5 6 ++ regField rs2 ++ regField rs1 ++ f3 ++ off.extractLsb' 1 4 ++
    off.extractLsb' 11 1 ++ op

/-- U format (R76, R92). -/
def encU (imm20 : BitVec 20) (rd : RegIdx) (op : BitVec 7) : Word := imm20 ++ regField rd ++ op

/-- J format; bit 0 of the offset is not encoded (R77, R92). -/
def encJ (off : BitVec 21) (rd : RegIdx) (op : BitVec 7) : Word :=
  off.extractLsb' 20 1 ++ off.extractLsb' 1 10 ++ off.extractLsb' 11 1 ++ off.extractLsb' 12 8 ++ regField rd ++ op

/-- The word of an instruction; the bits the decoder ignores are zero (R92, R108; log 20). -/
def encode : Instr → Word
  | .add rd rs1 rs2 => encR 0x00#7 rs2 rs1 0#3 rd 0x33#7
  | .mul rd rs1 rs2 => encR 0x01#7 rs2 rs1 0#3 rd 0x33#7
  | .sub rd rs1 rs2 => encR 0x20#7 rs2 rs1 0#3 rd 0x33#7
  | .sll rd rs1 rs2 => encR 0x00#7 rs2 rs1 1#3 rd 0x33#7
  | .mulh rd rs1 rs2 => encR 0x01#7 rs2 rs1 1#3 rd 0x33#7
  | .slt rd rs1 rs2 => encR 0x00#7 rs2 rs1 2#3 rd 0x33#7
  | .xor rd rs1 rs2 => encR 0x00#7 rs2 rs1 4#3 rd 0x33#7
  | .div rd rs1 rs2 => encR 0x01#7 rs2 rs1 4#3 rd 0x33#7
  | .srl rd rs1 rs2 => encR 0x00#7 rs2 rs1 5#3 rd 0x33#7
  | .sra rd rs1 rs2 => encR 0x20#7 rs2 rs1 5#3 rd 0x33#7
  | .or rd rs1 rs2 => encR 0x00#7 rs2 rs1 6#3 rd 0x33#7
  | .rem rd rs1 rs2 => encR 0x01#7 rs2 rs1 6#3 rd 0x33#7
  | .and rd rs1 rs2 => encR 0x00#7 rs2 rs1 7#3 rd 0x33#7
  | .addi rd rs1 imm => encI imm rs1 0#3 rd 0x13#7
  | .slli rd rs1 shamt => encI (0x00#7 ++ shamt) rs1 1#3 rd 0x13#7
  | .slti rd rs1 imm => encI imm rs1 2#3 rd 0x13#7
  | .xori rd rs1 imm => encI imm rs1 4#3 rd 0x13#7
  | .srli rd rs1 shamt => encI (0x00#7 ++ shamt) rs1 5#3 rd 0x13#7
  | .srai rd rs1 shamt => encI (0x20#7 ++ shamt) rs1 5#3 rd 0x13#7
  | .ori rd rs1 imm => encI imm rs1 6#3 rd 0x13#7
  | .andi rd rs1 imm => encI imm rs1 7#3 rd 0x13#7
  | .lb rd rs1 imm => encI imm rs1 0#3 rd 0x03#7
  | .lh rd rs1 imm => encI imm rs1 1#3 rd 0x03#7
  | .lw rd rs1 imm => encI imm rs1 2#3 rd 0x03#7
  | .sb rs2 rs1 imm => encS imm rs2 rs1 0#3 0x23#7
  | .sh rs2 rs1 imm => encS imm rs2 rs1 1#3 0x23#7
  | .sw rs2 rs1 imm => encS imm rs2 rs1 2#3 0x23#7
  | .beq rs1 rs2 off => encB off rs2 rs1 0#3 0x63#7
  | .bne rs1 rs2 off => encB off rs2 rs1 1#3 0x63#7
  | .lui rd imm20 => encU imm20 rd 0x37#7
  | .jal rd off => encJ off rd 0x6F#7
  | .ecall => 0x00000073#32

/-- The four bytes of an instruction in memory, lowest address first (R54, R92). -/
def encodeBytes (i : Instr) : List Byte := leBytes 4 (encode i)

end Sys2Proof
end

