-- ==== Sys2Proof/Config.lean ====
section
/-! DEFINITION. The implementation parameters of the block (spec/00_scope.md R6): the two that steer an instruction
are a record, the open texts and the open exit status are constants without a value. -/

namespace Sys2Proof

/-- The parameters that decide what an instruction does (R6). The spec gives neither a value (D5, D6); the machine
carries the record along unchanged, so a statement over all states is a statement over all values (log 1). -/
structure Params where
  /-- MEMORY_SPACE: the memory's capacity in bytes, `1 <= MEMORY_SPACE <= 2^32` (`Params.wf`). -/
  memorySpace : Nat
  /-- ALIGN_CHECK_EN: whether loads and stores enforce natural alignment (R43). -/
  alignCheckEn : Bool
  deriving DecidableEq, Repr

/-- The range R6 gives MEMORY_SPACE. -/
abbrev Params.wf (p : Params) : Prop := 1 ≤ p.memorySpace ∧ p.memorySpace ≤ 2 ^ 32

namespace Config

/-- DESIGN CHOICE (log 2, log 3): the parameters of `State.reset`. MEMORY_SPACE is the capacity of the spec's own
vectors (spec/95_test_vectors.md, Conventions), ALIGN_CHECK_EN its reference value 0 (R6). -/
def resetParams : Params := { memorySpace := 0x1000, alignCheckEn := false }

/-- What a byte of the memory array reads as when the memory lists nothing for it.
DESIGN CHOICE (log 6): the spec leaves INIT_MEM to the host (R33). -/
def unlistedByte : Byte := 0x00

/-- The bytes of TEXT_EXIT before its closing newline: open (R6, D19; log 7). -/
opaque textExitBody : List (BitVec 7)

/-- The bytes of TEXT_BAD_ECALL(sel) before its closing newline: open (R6, D19; log 7). -/
opaque textBadEcallBody : Word → List (BitVec 7)

/-- The bytes of TEXT_ARITH before its closing newline: open (R6, D9, D19; log 7). -/
opaque textArithBody : List (BitVec 7)

/-- FAIL_STATUS less one: open, so FAIL_STATUS is any non-zero value (R6, R281, D30; log 8). -/
opaque failStatusPred : Nat

end Config

end Sys2Proof
end

