-- ==== Sys2Proof/Machine/State.lean ====
section
/-! DEFINITION. The state of CS61C CORE as plain data (spec/10_state.md R20), the outcomes of a step and the state after
reset (R33, spec/70_reset_and_hazards.md R310 to R312). -/

namespace Sys2Proof.Machine

/-- The memory array of R29 as the bytes that differ from `Config.unlistedByte`: (address, byte) pairs, addresses
strictly rising (`Memory.wf` in Machine/Ops.lean is that form; log 6). -/
abbrev Memory := List Host.Cell

/-- The widths an access can have (R40, R47). -/
inductive Width where
  | byte | half | word
  deriving DecidableEq, Repr

/-- The sub-kind of a rejected access: the source's memory-bounds and memory-alignment (R285). -/
inductive AccessFault where
  | bounds | alignment
  deriving DecidableEq, Repr

/-- The cause of a failed run, with the value R280 records for it and the sub-kind of R285. Neither the recorded value
nor the sub-kind shows in the status code (R281; log 11). -/
inductive Cause where
  | invalidInstruction (word : Word)
  | badRead (addr : Word) (kind : AccessFault)
  | badWrite (addr : Word) (kind : AccessFault)
  | unsupportedSyscall (sel : Word)
  | arithUndefined
  deriving DecidableEq, Repr

/-- The six halting conditions: five failures and the successful exit (R280). -/
inductive Condition where
  | fail (cause : Cause)
  | exit
  deriving DecidableEq, Repr

/-- The run status (R27). -/
inductive Status where
  | running
  | exitedOk
  | failed (cause : Cause)
  deriving DecidableEq, Repr

/-- One transaction of the command interface (R15). -/
inductive Command where
  | disassemble (word : Word)
  | execute (word : Word)
  deriving DecidableEq, Repr

/-- The state: the five pieces of R20, then the two of the model's own. -/
structure State where
  /-- x[0] .. x[31], none hard-wired (R21) -/
  regs : Vector Word 32
  /-- the program counter (R24) -/
  pc : Word
  /-- MEM (R29) -/
  mem : Memory
  /-- the run status (R27) -/
  status : Status
  /-- the output stream, oldest byte first (R28) -/
  out : List Byte
  /-- the model's own: transactions the host has offered and that are not yet served, oldest first (R15; log 9) -/
  commands : List Command
  /-- not state in the spec (R34): the parameters of R6, which no step writes (log 1) -/
  params : Params
  deriving DecidableEq, Repr

/-- Why the machine stops with a fault: never. Every halting condition of R280 is a next state whose status has left
RUNNING (R289), so no meaning raises a fault and the type has no constructor (log 16). Safe. -/
inductive Fault where
  deriving DecidableEq, Repr

/-- Why a step has no meaning. -/
inductive Refusal where
  /-- An instruction the model gives no meaning: raised by a refused arm of `exec`, and there is none. Safe. -/
  | notModelled (mnemonic : String)
  deriving DecidableEq, Repr

/-- What a step answers. -/
abbrev Result := Host.Outcome State Fault Refusal

/-- Reset and initialisation: the host's registers, pc and memory, status RUNNING, output empty (R310, R311). -/
def State.initialise (params : Params) (initR : Vector Word 32) (initPc : Word) (initMem : Memory) : State :=
  { regs := initR, pc := initPc, mem := initMem, status := .running, out := [], commands := [], params := params }

/-- The state after reset. Status and output are the spec's (R33). DESIGN CHOICE: the spec leaves INIT_R (log 4),
INIT_PC (log 5), INIT_MEM (log 6) and the parameters (log 2, log 3) to the host. -/
def State.reset : State := State.initialise Config.resetParams (Vector.replicate 32 0) 0 []

end Sys2Proof.Machine
end

