-- ==== Sys2Proof/Machine/Text.lean ====
section
/-! DEFINITION. The text primitives `dec` and `hex8` (spec/00_scope.md R13) and the texts of the halting conditions
(spec/60_exceptions.md R280). All text is 7-bit ASCII (spec/10_state.md R28). -/

namespace Sys2Proof.Machine

/-- The bytes of ASCII characters. -/
def ascii (cs : List Char) : List Byte := cs.map fun c => BitVec.ofNat 8 c.toNat

/-- The newline byte 0x0A and the tab byte 0x09 (R28). -/
def newline : List Byte := [0x0A]
def tab : List Byte := [0x09]

/-- The decimal digit of a number below ten. -/
def digit (n : Nat) : Byte := BitVec.ofNat 8 (0x30 + n % 10)

/-- Decimal digits, most significant first; the fuel bounds their count. -/
def decDigits : Nat → Nat → List Byte
  | 0, _ => []
  | fuel + 1, n => if n < 10 then [digit n] else decDigits fuel (n / 10) ++ [digit n]

/-- The shortest decimal spelling of a natural number: a number needs no more decimal than binary digits. -/
def decNat (n : Nat) : List Byte := decDigits (n.log2 + 1) n

/-- `dec(z)`: a leading `-` for a negative value, no `+`, no leading zeros, `0` for zero (R13). -/
def decInt (z : Int) : List Byte :=
  if z < 0 then ascii ['-'] ++ decNat z.natAbs else decNat z.natAbs

/-- The lower-case hexadecimal digit of a nibble (R13). -/
def hexDigit (d : BitVec 4) : Byte :=
  if d.toNat < 10 then BitVec.ofNat 8 (0x30 + d.toNat) else BitVec.ofNat 8 (0x61 + (d.toNat - 10))

/-- `hex8(v)`: exactly eight lower-case hexadecimal digits (R13). -/
def hex8 (v : Word) : List Byte := [7, 6, 5, 4, 3, 2, 1, 0].map fun i => hexDigit (v.extractLsb' (4 * i) 4)

/-- An open text of Config: its bytes are 7-bit, its last byte is the newline (R6, R28; log 7). -/
def openText (body : List (BitVec 7)) : List Byte := body.map (fun c => c.setWidth 8) ++ newline

/-- TEXT_EXIT (R273). -/
def textExit : List Byte := openText Config.textExitBody

/-- TEXT_BAD_ECALL(sel) (R274). -/
def textBadEcall (sel : Word) : List Byte := openText (Config.textBadEcallBody sel)

/-- TEXT_ARITH (R287). -/
def textArith : List Byte := openText Config.textArithBody

/-- The fixed part of the invalid-instruction line, `Invalid Instruction: 0x` (R151). -/
def invalidPrefix : List Byte :=
  ascii ['I', 'n', 'v', 'a', 'l', 'i', 'd', ' ',
    'I', 'n', 's', 't', 'r', 'u', 'c', 't', 'i', 'o', 'n', ':', ' ', '0', 'x']

/-- The fixed part of the bad-read line, `Bad Read. Address: 0x` (R60). -/
def badReadPrefix : List Byte :=
  ascii ['B', 'a', 'd', ' ', 'R', 'e', 'a', 'd', '.', ' ',
    'A', 'd', 'd', 'r', 'e', 's', 's', ':', ' ', '0', 'x']

/-- The fixed part of the bad-write line, `Bad Write. Address: 0x` (R60). -/
def badWritePrefix : List Byte :=
  ascii ['B', 'a', 'd', ' ', 'W', 'r', 'i', 't', 'e', '.', ' ',
    'A', 'd', 'd', 'r', 'e', 's', 's', ':', ' ', '0', 'x']

/-- The invalid-instruction line, one for both transactions (R151, R282). -/
def invalidLine (word : Word) : List Byte := invalidPrefix ++ hex8 word ++ newline

/-- What a cause appends to the output stream (R60, R280). -/
def Cause.diagnostic : Cause → List Byte
  | .invalidInstruction word => invalidLine word
  | .badRead addr _ => badReadPrefix ++ hex8 addr ++ newline
  | .badWrite addr _ => badWritePrefix ++ hex8 addr ++ newline
  | .unsupportedSyscall sel => textBadEcall sel
  | .arithUndefined => textArith

/-- What a halting condition appends to the output stream (R280). -/
def Condition.diagnostic : Condition → List Byte
  | .fail cause => cause.diagnostic
  | .exit => textExit

end Sys2Proof.Machine
end

