-- ==== Sys2Proof/Machine/Ops.lean ====
section
/-! DEFINITION. The named operations over registers, pc, memory, output and status: the register_file, the
program_counter and the memory_interface_alignment_checker, and the one operation that takes a halting condition. -/

namespace Sys2Proof.Machine

/-! ### Registers and pc -/

/-- Read x[r]; index 0 is not special (R10, R21). -/
def State.reg (s : State) (r : RegIdx) : Word := s.regs[r]

/-- Write x[r]; index 0 is not special (R10, R21). -/
def State.setReg (s : State) (r : RegIdx) (v : Word) : State := { s with regs := s.regs.set r v }

/-- Write the pc (R10). -/
def State.setPc (s : State) (t : Word) : State := { s with pc := t }

/-- The generic advance `pc <- to32(pc + 4)` (R25). -/
def State.advance (s : State) : State := s.setPc (s.pc + 4#32)

/-- Append text to the output stream (R13, R28). -/
def State.emit (s : State) (text : List Byte) : State := { s with out := s.out ++ text }

/-! ### The status and taking a halting condition -/

/-- The final status of a condition (R280). -/
def Condition.finalStatus : Condition → Status
  | .fail cause => .failed cause
  | .exit => .exitedOk

/-- Take a halting condition: no register, pc or memory write; the diagnostic is appended to the output stream and the
status leaves RUNNING (R12, R289). Nothing is saved and there is no return (R291), so no operation undoes this one. -/
def raise (c : Condition) (s : State) : State := { s.emit c.diagnostic with status := c.finalStatus }

/-- The code of a status on the status interface (R281). -/
def Status.code : Status → Nat
  | .running => 0
  | .exitedOk => 1
  | .failed (.invalidInstruction _) => 2
  | .failed (.badRead _ _) => 3
  | .failed (.badWrite _ _) => 4
  | .failed (.unsupportedSyscall _) => 5
  | .failed .arithUndefined => 6

/-- FAIL_STATUS: any non-zero value (R6, R281; log 8). -/
def failStatus : Nat := Config.failStatusPred + 1

/-- The exit status the host's environment sees once the run has ended (R273, R281). -/
def Status.exitStatus : Status → Option Nat
  | .running => none
  | .exitedOk => some 0
  | .failed _ => some failStatus

/-! ### The memory array -/

/-- The byte at an address. -/
def Memory.read : Memory → Nat → Byte
  | [], _ => Config.unlistedByte
  | (k, v) :: rest, a => if k = a then v else Memory.read rest a

/-- Put a byte at an address. Writing what an unlisted address reads as removes the entry, so the form stays canonical. -/
def Memory.write : Memory → Nat → Byte → Memory
  | [], a, b => if b = Config.unlistedByte then [] else [(a, b)]
  | (k, v) :: rest, a, b =>
    if a < k then (if b = Config.unlistedByte then (k, v) :: rest else (a, b) :: (k, v) :: rest)
    else if a = k then (if b = Config.unlistedByte then rest else (a, b) :: rest)
    else (k, v) :: Memory.write rest a b

/-- The canonical form: addresses strictly rising, no entry equal to what an unlisted address reads as. -/
abbrev Memory.wf (m : Memory) : Prop :=
  m.Pairwise (fun c d => c.1 < d.1) ∧ ∀ c ∈ m, c.2 ≠ Config.unlistedByte

/-- The n bytes at a, a+1, ... (R41). -/
def Memory.readList (m : Memory) (a : Nat) : Nat → List Byte
  | 0 => []
  | n + 1 => Memory.read m a :: Memory.readList m (a + 1) n

/-- Put bytes at a, a+1, ... (R41). -/
def Memory.writeList (m : Memory) (a : Nat) : List Byte → Memory
  | [] => m
  | b :: bs => Memory.writeList (Memory.write m a b) (a + 1) bs

/-! ### The memory interface -/

/-- The bytes of a width (R40). -/
def Width.bytes : Width → Nat
  | .byte => 1
  | .half => 2
  | .word => 4

/-- The reject output: the bounds check first, its sum unbounded, then the alignment check if `checkAlign`
(R42, R43, R46, R285; log 15). -/
def accessReject (p : Params) (checkAlign : Bool) (a : Word) (w : Width) : Option AccessFault :=
  if p.memorySpace < a.toNat + w.bytes then some .bounds
  else if checkAlign = true ∧ a.toNat % w.bytes ≠ 0 then some .alignment
  else none

/-- `MemRead(a, n)`: the little-endian bytes, zero-extended to 32 bits, or the condition BadRead(a) (R40, R44). -/
def memRead (checkAlign : Bool) (a : Word) (w : Width) (s : State) : Except Condition Word :=
  match accessReject s.params checkAlign a w with
  | some kind => .error (.fail (.badRead a kind))
  | none => .ok (BitVec.ofNat 32 (leValue (s.mem.readList a.toNat w.bytes)))

/-- `MemWrite(a, n, v)`: the low n bytes of v, little-endian, or the condition BadWrite(a); a rejected write touches no
byte (R45, R46). -/
def memWrite (checkAlign : Bool) (a : Word) (w : Width) (v : Word) (s : State) : Except Condition State :=
  match accessReject s.params checkAlign a w with
  | some kind => .error (.fail (.badWrite a kind))
  | none => .ok { s with mem := s.mem.writeList a.toNat (leBytes w.bytes v) }

/-! ### Finishing an instruction -/

/-- Commit a result: `x[rd] <- v; pc <- to32(pc + 4)` (R23, R25). -/
def commit (rd : RegIdx) (v : Word) (s : State) : Result := .next ((s.setReg rd v).advance)

/-- Halt on a condition: a next state, none of the instruction's own writes made (R289). -/
def halt (c : Condition) (s : State) : Result := .next (raise c s)

end Sys2Proof.Machine
end

