-- ==== Sys2Proof/Machine/Operands.lean ====
section
/-! DEFINITION. The operand forms: the sign_extender, the extended immediates of the immediate_reconstructor
(spec/41_immediate_reconstructor.md) and the one addressing mode (spec/20_memory.md R51). -/

namespace Sys2Proof.Machine

/-- `sext_N(v)`: the low N bits of v, bit N-1 copied upward; bits at N and above are ignored (R9, R120, R121). -/
def sext (n : Nat) (v : Word) : Word := (v.setWidth n).signExtend 32

/-- The I immediate, extended (R122). -/
def immI (imm : BitVec 12) : Word := sext 12 (imm.setWidth 32)

/-- The store offset, extended (R123). -/
def immS (imm : BitVec 12) : Word := sext 12 (imm.setWidth 32)

/-- The branch offset, extended (R124). -/
def immB (off : BitVec 13) : Word := sext 13 (off.setWidth 32)

/-- The jump offset, extended (R125). -/
def immJ (off : BitVec 21) : Word := sext 21 (off.setWidth 32)

/-- The value lui writes, `imm20 << 12` (R126, R265). -/
def upper (imm20 : BitVec 20) : Word := imm20.setWidth 32 <<< 12

/-- The amount of a register shift: the low five bits of x[rs2] (R195). -/
def shiftAmount (b : Word) : BitVec 5 := b.extractLsb' 0 5

/-- Base register plus displacement, a 32-bit sum that wraps (R51, R230). -/
def effectiveAddress (base disp : Word) : Word := base + disp

/-- The address a load forms (R230). -/
def loadAddress (rs1 : RegIdx) (imm : BitVec 12) (s : State) : Word := effectiveAddress (s.reg rs1) (immI imm)

/-- The address a store forms (R230). -/
def storeAddress (rs1 : RegIdx) (imm : BitVec 12) (s : State) : Word := effectiveAddress (s.reg rs1) (immS imm)

/-- The two registers ecall reads, selector and argument (R105, R275). -/
def selectorReg : RegIdx := 10
def argumentReg : RegIdx := 11

end Sys2Proof.Machine
end

