-- ==== Sys2Proof/Machine/Flags.lean ====
section
/-! DEFINITION. The hardware has no flags and no condition codes (spec/10_state.md R30). What stands here are the
one-bit conditions the units compute in their place: the `undefined` output of the ALU, the signed comparison and the
`taken` output of the branch logic. -/

namespace Sys2Proof.Machine

/-- The `undefined` output, for div and rem: divisor zero, or -2^31 by -1 (R194, R197). -/
def divUndefined (a b : Word) : Bool := b == 0#32 || (a == 0x80000000#32 && b == 0xFFFFFFFF#32)

/-- The signed comparison of slt and slti as a register value, 1 or 0 (R186, R213). -/
def lessThan (a b : Word) : Word := if a.slt b then 1#32 else 0#32

/-- The `taken` output for beq: the two patterns are equal (R250, R251). -/
def takenBeq (a b : Word) : Bool := a == b

/-- The `taken` output for bne: the two patterns differ (R250, R252). -/
def takenBne (a b : Word) : Bool := a != b

end Sys2Proof.Machine
end

