-- ==== Sys2Proof/Machine/Branch.lean ====
section
/-! DEFINITION. branch_jump_logic: beq, bne, jal (spec/46_branch_jump.md). All sums wrap modulo 2^32, the offsets are bytes
(R128), nothing checks the target (R254) and no generic advance is added (R255). -/

namespace Sys2Proof.Machine

/-- next_pc of a branch: pc + immB if taken, else pc + 4 (R250). -/
def branchNextPc (taken : Bool) (pc : Word) (off : BitVec 13) : Word := if taken then pc + immB off else pc + 4#32

/-- next_pc of a jump: pc + immJ (R250, R253). -/
def jumpNextPc (pc : Word) (off : BitVec 21) : Word := pc + immJ off

/-- link: the value jal writes, pc + 4 (R250, R253). -/
def linkValue (pc : Word) : Word := pc + 4#32

/-- beq (R251). -/
def execBeq (rs1 rs2 : RegIdx) (off : BitVec 13) (s : State) : Result :=
  .next (s.setPc (branchNextPc (takenBeq (s.reg rs1) (s.reg rs2)) s.pc off))

/-- bne (R252). -/
def execBne (rs1 rs2 : RegIdx) (off : BitVec 13) (s : State) : Result :=
  .next (s.setPc (branchNextPc (takenBne (s.reg rs1) (s.reg rs2)) s.pc off))

/-- jal: `x[rd] <- to32(pc + 4); pc <- to32(pc + s(immJ))`, both from the pc before the instruction (R253). -/
def execJal (rd : RegIdx) (off : BitVec 21) (s : State) : Result :=
  .next ((s.setReg rd (linkValue s.pc)).setPc (jumpNextPc s.pc off))

end Sys2Proof.Machine
end

