-- ==== Sys2Proof/Machine/LoadStore.lean ====
section
/-! DEFINITION. Loads and stores (spec/45_loads_stores.md). Both tie the alignment check of the memory interface to the
strap ALIGN_CHECK_EN (spec/20_memory.md R40, R43). -/

namespace Sys2Proof.Machine

/-- The load of a width with its extension: halt with BadRead, or `x[rd] <- ext(v); pc <- to32(pc + 4)` (R230). -/
def loadReg (w : Width) (ext : Word → Word) (rd : RegIdx) (addr : Word) (s : State) : Result :=
  match memRead s.params.alignCheckEn addr w s with
  | .error c => halt c s
  | .ok v => commit rd (ext v) s

/-- The store of a width: halt with BadWrite, or write the low bytes of v and advance (R230). -/
def storeReg (w : Width) (addr v : Word) (s : State) : Result :=
  match memWrite s.params.alignCheckEn addr w v s with
  | .error c => halt c s
  | .ok t => .next t.advance

/-- lb: one byte, sign-extended (R231). -/
def execLb (rd rs1 : RegIdx) (imm : BitVec 12) (s : State) : Result :=
  loadReg .byte (sext 8) rd (loadAddress rs1 imm s) s

/-- lh: two bytes, sign-extended (R232). -/
def execLh (rd rs1 : RegIdx) (imm : BitVec 12) (s : State) : Result :=
  loadReg .half (sext 16) rd (loadAddress rs1 imm s) s

/-- lw: four bytes, no extension needed (R233). -/
def execLw (rd rs1 : RegIdx) (imm : BitVec 12) (s : State) : Result :=
  loadReg .word id rd (loadAddress rs1 imm s) s

/-- sb: the low byte of x[rs2] (R234). -/
def execSb (rs2 rs1 : RegIdx) (imm : BitVec 12) (s : State) : Result :=
  storeReg .byte (storeAddress rs1 imm s) (s.reg rs2) s

/-- sh: the low two bytes of x[rs2] (R235). -/
def execSh (rs2 rs1 : RegIdx) (imm : BitVec 12) (s : State) : Result :=
  storeReg .half (storeAddress rs1 imm s) (s.reg rs2) s

/-- sw: all four bytes of x[rs2], the most significant at addr+3 (R236, R53). -/
def execSw (rs2 rs1 : RegIdx) (imm : BitVec 12) (s : State) : Result :=
  storeReg .word (storeAddress rs1 imm s) (s.reg rs2) s

end Sys2Proof.Machine
end

