-- ==== Sys2Proof/Machine/Alu.lean ====
section
/-! DEFINITION. The two execution units of the register-register and register-immediate instructions:
alu_arithmetic_logical (spec/43_alu_register_register.md R194) and shifter_unit (R195). -/

namespace Sys2Proof.Machine

/-- The ten operations of the ALU (R194). -/
inductive AluOp where
  | add | sub | slt | xor | or | and | mul | mulh | div | rem
  deriving DecidableEq, Repr

/-- The three operations of the shifter (R195). -/
inductive ShiftOp where
  | sll | srl | sra
  deriving DecidableEq, Repr

/-- The high word of the signed 64-bit product (R185). -/
def mulHigh (a b : Word) : Word := (a.signExtend 64 * b.signExtend 64).extractLsb' 32 32

/-- The ALU: `none` is its `undefined` output, raised by div and rem only (R194). -/
def alu (op : AluOp) (a b : Word) : Option Word :=
  match op with
  | .add => some (a + b)
  | .sub => some (a - b)
  | .slt => some (lessThan a b)
  | .xor => some (a ^^^ b)
  | .or => some (a ||| b)
  | .and => some (a &&& b)
  | .mul => some (a * b)
  | .mulh => some (mulHigh a b)
  | .div => if divUndefined a b then none else some (a.sdiv b)
  | .rem => if divUndefined a b then none else some (a.srem b)

/-- The shifter; the amount is always 0 .. 31 (R195). -/
def shifter (op : ShiftOp) (a : Word) (shamt : BitVec 5) : Word :=
  match op with
  | .sll => a <<< shamt.toNat
  | .srl => a >>> shamt.toNat
  | .sra => a.sshiftRight shamt.toNat

/-- Run the ALU on two operands and write x[rd], or halt with ArithUndefined (R180, R197, R287). -/
def execAlu (op : AluOp) (rd : RegIdx) (a b : Word) (s : State) : Result :=
  match alu op a b with
  | some v => commit rd v s
  | none => halt (.fail .arithUndefined) s

/-- Run the shifter and write x[rd] (R180, R210). -/
def execShift (op : ShiftOp) (rd : RegIdx) (a : Word) (shamt : BitVec 5) (s : State) : Result :=
  commit rd (shifter op a shamt) s

end Sys2Proof.Machine
end

