-- ==== Sys2Proof/Machine/RegImm.lean ====
section
/-! DEFINITION. The register-immediate instructions (spec/44_alu_register_immediate.md): `a = x[rs1]`; the operation of the
same name without the final `i`, with the immediate or the shift amount as its second operand (R210). -/

namespace Sys2Proof.Machine

/-- addi: `x[rd] <- to32(u(a) + s(immI))` (R211). -/
def execAddi (rd rs1 : RegIdx) (imm : BitVec 12) (s : State) : Result :=
  execAlu .add rd (s.reg rs1) (immI imm) s

/-- slli: `x[rd] <- to32(u(a) << shamt)` (R212). -/
def execSlli (rd rs1 : RegIdx) (shamt : BitVec 5) (s : State) : Result :=
  execShift .sll rd (s.reg rs1) shamt s

/-- slti: `x[rd] <- (s(a) < s(immI)) ? 1 : 0` (R213). -/
def execSlti (rd rs1 : RegIdx) (imm : BitVec 12) (s : State) : Result :=
  execAlu .slt rd (s.reg rs1) (immI imm) s

/-- xori: `x[rd] <- a xor immI` (R214). -/
def execXori (rd rs1 : RegIdx) (imm : BitVec 12) (s : State) : Result :=
  execAlu .xor rd (s.reg rs1) (immI imm) s

/-- srli: `x[rd] <- u(a) >> shamt` (R215). -/
def execSrli (rd rs1 : RegIdx) (shamt : BitVec 5) (s : State) : Result :=
  execShift .srl rd (s.reg rs1) shamt s

/-- srai: `x[rd] <- to32(floor(s(a) / 2^shamt))` (R216). -/
def execSrai (rd rs1 : RegIdx) (shamt : BitVec 5) (s : State) : Result :=
  execShift .sra rd (s.reg rs1) shamt s

/-- ori: `x[rd] <- a or immI` (R217). -/
def execOri (rd rs1 : RegIdx) (imm : BitVec 12) (s : State) : Result :=
  execAlu .or rd (s.reg rs1) (immI imm) s

/-- andi: `x[rd] <- a and immI` (R218). -/
def execAndi (rd rs1 : RegIdx) (imm : BitVec 12) (s : State) : Result :=
  execAlu .and rd (s.reg rs1) (immI imm) s

end Sys2Proof.Machine
end

