-- ==== Sys2Proof/Machine/RegReg.lean ====
section
/-! DEFINITION. The register-register instructions (spec/43_alu_register_register.md): `a = x[rs1]`, `b = x[rs2]`, both read
before x[rd] is written; `pc <- to32(pc + 4)` (R180, R198). -/

namespace Sys2Proof.Machine

/-- add: `x[rd] <- to32(u(a) + u(b))` (R181). -/
def execAdd (rd rs1 rs2 : RegIdx) (s : State) : Result :=
  execAlu .add rd (s.reg rs1) (s.reg rs2) s

/-- mul: `x[rd] <- to32(s(a) * s(b))` (R182). -/
def execMul (rd rs1 rs2 : RegIdx) (s : State) : Result :=
  execAlu .mul rd (s.reg rs1) (s.reg rs2) s

/-- sub: `x[rd] <- to32(u(a) - u(b))` (R183). -/
def execSub (rd rs1 rs2 : RegIdx) (s : State) : Result :=
  execAlu .sub rd (s.reg rs1) (s.reg rs2) s

/-- sll: `x[rd] <- to32(u(a) << b[4:0])` (R184). -/
def execSll (rd rs1 rs2 : RegIdx) (s : State) : Result :=
  execShift .sll rd (s.reg rs1) (shiftAmount (s.reg rs2)) s

/-- mulh: `x[rd] <- bits 63:32 of s(a) * s(b)` (R185). -/
def execMulh (rd rs1 rs2 : RegIdx) (s : State) : Result :=
  execAlu .mulh rd (s.reg rs1) (s.reg rs2) s

/-- slt: `x[rd] <- (s(a) < s(b)) ? 1 : 0` (R186). -/
def execSlt (rd rs1 rs2 : RegIdx) (s : State) : Result :=
  execAlu .slt rd (s.reg rs1) (s.reg rs2) s

/-- xor: `x[rd] <- a xor b` (R187). -/
def execXor (rd rs1 rs2 : RegIdx) (s : State) : Result :=
  execAlu .xor rd (s.reg rs1) (s.reg rs2) s

/-- div: `x[rd] <- to32(trunc(s(a) / s(b)))`, or ArithUndefined (R188, R197). -/
def execDiv (rd rs1 rs2 : RegIdx) (s : State) : Result :=
  execAlu .div rd (s.reg rs1) (s.reg rs2) s

/-- srl: `x[rd] <- u(a) >> b[4:0]` (R189). -/
def execSrl (rd rs1 rs2 : RegIdx) (s : State) : Result :=
  execShift .srl rd (s.reg rs1) (shiftAmount (s.reg rs2)) s

/-- sra: `x[rd] <- to32(floor(s(a) / 2^(b[4:0])))` (R190). -/
def execSra (rd rs1 rs2 : RegIdx) (s : State) : Result :=
  execShift .sra rd (s.reg rs1) (shiftAmount (s.reg rs2)) s

/-- or: `x[rd] <- a or b` (R191). -/
def execOr (rd rs1 rs2 : RegIdx) (s : State) : Result :=
  execAlu .or rd (s.reg rs1) (s.reg rs2) s

/-- rem: `x[rd] <- to32(s(a) - s(b) * trunc(s(a) / s(b)))`, or ArithUndefined (R192, R197). -/
def execRem (rd rs1 rs2 : RegIdx) (s : State) : Result :=
  execAlu .rem rd (s.reg rs1) (s.reg rs2) s

/-- and: `x[rd] <- a and b` (R193). -/
def execAnd (rd rs1 rs2 : RegIdx) (s : State) : Result :=
  execAlu .and rd (s.reg rs1) (s.reg rs2) s

end Sys2Proof.Machine
end

