-- ==== Sys2Proof/Machine/System.lean ====
section
/-! DEFINITION. ecall (spec/48_system_call.md). -/

namespace Sys2Proof.Machine

/-- Selector 1: print x[11] as a signed decimal, no newline, and advance (R272). -/
def printInteger (s : State) : State := (s.emit (decInt (s.reg argumentReg).toInt)).advance

/-- ecall: the selector is all 32 bits of x[10] (R271, R274); 1 prints, 10 exits, any other value fails. -/
def execEcall (s : State) : Result :=
  if s.reg selectorReg = 1#32 then .next (printInteger s)
  else if s.reg selectorReg = 10#32 then halt .exit s
  else halt (.fail (.unsupportedSyscall (s.reg selectorReg))) s

end Sys2Proof.Machine
end

