-- ==== Sys2Proof/Machine/UpperImm.lean ====
section
/-! DEFINITION. lui (spec/47_upper_immediate.md). -/

namespace Sys2Proof.Machine

/-- lui: `x[rd] <- imm20 << 12; pc <- to32(pc + 4)` (R265). -/
def execLui (rd : RegIdx) (imm20 : BitVec 20) (s : State) : Result := commit rd (upper imm20) s

end Sys2Proof.Machine
end

