-- ==== Sys2Proof/Machine/Render.lean ====
section
/-! DEFINITION. The disassembler, render path (spec/42_disassembler.md): one line of text per word, from the word alone. -/

namespace Sys2Proof.Machine

/-- Register i: the letter `x` and its decimal index (R22, R141). -/
def regText (r : RegIdx) : List Byte := ascii ['x'] ++ decNat r.val

/-- The separator of operands: a comma and a space (R141). -/
def sep : List Byte := ascii [',', ' ']

/-- The mnemonic, lower case (R153). -/
def mnemonic : Instr → List Char
  | .add _ _ _ => ['a', 'd', 'd']
  | .mul _ _ _ => ['m', 'u', 'l']
  | .sub _ _ _ => ['s', 'u', 'b']
  | .sll _ _ _ => ['s', 'l', 'l']
  | .mulh _ _ _ => ['m', 'u', 'l', 'h']
  | .slt _ _ _ => ['s', 'l', 't']
  | .xor _ _ _ => ['x', 'o', 'r']
  | .div _ _ _ => ['d', 'i', 'v']
  | .srl _ _ _ => ['s', 'r', 'l']
  | .sra _ _ _ => ['s', 'r', 'a']
  | .or _ _ _ => ['o', 'r']
  | .rem _ _ _ => ['r', 'e', 'm']
  | .and _ _ _ => ['a', 'n', 'd']
  | .addi _ _ _ => ['a', 'd', 'd', 'i']
  | .slli _ _ _ => ['s', 'l', 'l', 'i']
  | .slti _ _ _ => ['s', 'l', 't', 'i']
  | .xori _ _ _ => ['x', 'o', 'r', 'i']
  | .srli _ _ _ => ['s', 'r', 'l', 'i']
  | .srai _ _ _ => ['s', 'r', 'a', 'i']
  | .ori _ _ _ => ['o', 'r', 'i']
  | .andi _ _ _ => ['a', 'n', 'd', 'i']
  | .lb _ _ _ => ['l', 'b']
  | .lh _ _ _ => ['l', 'h']
  | .lw _ _ _ => ['l', 'w']
  | .sb _ _ _ => ['s', 'b']
  | .sh _ _ _ => ['s', 'h']
  | .sw _ _ _ => ['s', 'w']
  | .beq _ _ _ => ['b', 'e', 'q']
  | .bne _ _ _ => ['b', 'n', 'e']
  | .lui _ _ => ['l', 'u', 'i']
  | .jal _ _ => ['j', 'a', 'l']
  | .ecall => ['e', 'c', 'a', 'l', 'l']

/-- `rd, rs1, rs2` (R142). -/
def layoutRRR (rd rs1 rs2 : RegIdx) : List Byte := tab ++ regText rd ++ sep ++ regText rs1 ++ sep ++ regText rs2

/-- `r, r, value`, the shape of the immediate, shift-immediate and branch layouts (R143, R144, R147). -/
def layoutRRV (r1 r2 : RegIdx) (value : Int) : List Byte := tab ++ regText r1 ++ sep ++ regText r2 ++ sep ++ decInt value

/-- `r, offset(rs1)` (R145, R146). -/
def layoutMem (r : RegIdx) (offset : Int) (rs1 : RegIdx) : List Byte :=
  tab ++ regText r ++ sep ++ decInt offset ++ ascii ['('] ++ regText rs1 ++ ascii [')']

/-- `rd, value` (R148, R149). -/
def layoutRV (rd : RegIdx) (value : Int) : List Byte := tab ++ regText rd ++ sep ++ decInt value

/-- The operands of an instruction as its layout prints them (R142 to R150, R154). -/
def operandText : Instr → List Byte
  | .add rd rs1 rs2 | .mul rd rs1 rs2 | .sub rd rs1 rs2 | .sll rd rs1 rs2 | .mulh rd rs1 rs2 => layoutRRR rd rs1 rs2
  | .slt rd rs1 rs2 | .xor rd rs1 rs2 | .div rd rs1 rs2 | .srl rd rs1 rs2 | .sra rd rs1 rs2 => layoutRRR rd rs1 rs2
  | .or rd rs1 rs2 | .rem rd rs1 rs2 | .and rd rs1 rs2 => layoutRRR rd rs1 rs2
  | .addi rd rs1 imm | .slti rd rs1 imm | .xori rd rs1 imm => layoutRRV rd rs1 (immI imm).toInt
  | .ori rd rs1 imm | .andi rd rs1 imm => layoutRRV rd rs1 (immI imm).toInt
  | .slli rd rs1 shamt | .srli rd rs1 shamt | .srai rd rs1 shamt => layoutRRV rd rs1 shamt.toNat
  | .lb rd rs1 imm | .lh rd rs1 imm | .lw rd rs1 imm => layoutMem rd (immI imm).toInt rs1
  | .sb rs2 rs1 imm | .sh rs2 rs1 imm | .sw rs2 rs1 imm => layoutMem rs2 (immS imm).toInt rs1
  | .beq rs1 rs2 off | .bne rs1 rs2 off => layoutRRV rs1 rs2 (immB off).toInt
  | .lui rd imm20 => layoutRV rd imm20.toNat
  | .jal rd off => layoutRV rd (immJ off).toInt
  | .ecall => []

/-- The line of a word: the mnemonic and operands of its instruction, or the invalid-instruction line (R140, R151,
R154). -/
def render (word : Word) : List Byte :=
  match decode word with
  | .error _ => invalidLine word
  | .ok i => ascii (mnemonic i) ++ operandText i ++ newline

end Sys2Proof.Machine
end

