-- ==== Sys2Proof/Machine/Transaction.lean ====
section
/-! DEFINITION. The two transactions of the block (spec/00_scope.md R15, R16) and the reference driver that feeds it
(spec/70_reset_and_hazards.md R316, R317). -/

namespace Sys2Proof.Machine

/-- An EXECUTE transaction: ignored once the status has left RUNNING (R27, R291); an invalid word halts before any
register is read (R282, R293); a valid one is executed. -/
def executeWord (word : Word) (s : State) : Result :=
  match s.status with
  | .running =>
    match decode word with
    | .error _ => halt (.fail (.invalidInstruction word)) s
    | .ok i => exec i s
  | .exitedOk => .next s
  | .failed _ => .next s

/-- A DISASSEMBLE transaction: one line to the output stream, whatever the status, and nothing else (R140, R152). -/
def disassembleWord (word : Word) (s : State) : Result := .next (s.emit (render word))

/-- Serve one transaction (R15). -/
def transact (c : Command) (s : State) : Result :=
  match c with
  | .disassemble word => disassembleWord word s
  | .execute word => executeWord word s

/-- FetchWord of the reference driver: the four little-endian bytes at pc, no alignment check whatever the strap says;
a fetch beyond capacity is rejected like a load (R54, R316, R317; log 21). -/
def fetchWord (s : State) : Except Condition Word := memRead false s.pc .word s

/-- One turn of the reference driver: while RUNNING, fetch and EXECUTE; once the run has ended the loop is over and the
block holds its state (R302, R316). -/
def driverTurn (s : State) : Result :=
  match s.status with
  | .running =>
    match fetchWord s with
    | .error c => halt c s
    | .ok word => executeWord word s
  | .exitedOk => .next s
  | .failed _ => .next s

/-- One turn of the block: the oldest transaction the host has offered, or else a turn of the driver (log 9, log 10). -/
def turn (s : State) : Result :=
  match s.commands with
  | c :: rest => transact c { s with commands := rest }
  | [] => driverTurn s

/-- Place a word so that the very next turn executes it: at pc in memory when memory holds four bytes there, on the
command interface otherwise; the run is RUNNING and nothing else is waiting (log 17). -/
def placeWord (s : State) (word : Word) : State :=
  if s.pc.toNat + 4 ≤ s.params.memorySpace then
    { s with mem := s.mem.writeList s.pc.toNat (leBytes 4 word), status := .running, commands := [] }
  else { s with status := .running, commands := [.execute word] }

end Sys2Proof.Machine
end

