-- ==== Sys2Proof/Machine/Step.lean ====
section
/-! DEFINITION. The step: one transaction, one indivisible step (spec/70_reset_and_hazards.md R320). -/

namespace Sys2Proof.Machine

/-- One step of the machine: a next state always (log 16). -/
def step (s : State) : Host.Outcome State Fault Refusal := turn s

/-- The state with an instruction placed where `step` takes its next one; bits at nbits and above are 0 (log 17). -/
def State.withFetchWord (s : State) (nbits w : Nat) : State := placeWord s (BitVec.ofNat 32 (w % 2 ^ nbits))

end Sys2Proof.Machine
end

