-- ==== Sys2Proof/Machine/Control.lean ====
section
/-! DEFINITION. The control outputs of the instruction_decoder (spec/40_instruction_decoder.md R105, R106): what each kind
reads, writes and accesses, and which halting condition it meets (spec/60_exceptions.md R280, R293). The meanings do not call them; statements hold the meanings against them. -/

namespace Sys2Proof.Machine

/-- The unit that executes a kind (R106). The adder that forms an address is part of the memory unit's row. -/
inductive ExecUnit where
  | aluArithmeticLogical | shifterUnit | memoryInterface | branchJumpLogic | wiring | blockControl
  deriving DecidableEq, Repr

/-- A data access of an instruction (R106). -/
inductive Access where
  | read (w : Width)
  | write (w : Width)
  deriving DecidableEq, Repr

/-- The family of a kind (R80, R102). -/
def family : Instr → Family
  | .add _ _ _ | .mul _ _ _ | .sub _ _ _ | .sll _ _ _ | .mulh _ _ _ | .slt _ _ _ | .xor _ _ _ => .registerRegister
  | .div _ _ _ | .srl _ _ _ | .sra _ _ _ | .or _ _ _ | .rem _ _ _ | .and _ _ _ => .registerRegister
  | .addi _ _ _ | .slli _ _ _ | .slti _ _ _ | .xori _ _ _ => .immediateExceptLoad
  | .srli _ _ _ | .srai _ _ _ | .ori _ _ _ | .andi _ _ _ => .immediateExceptLoad
  | .lb _ _ _ | .lh _ _ _ | .lw _ _ _ => .load
  | .sb _ _ _ | .sh _ _ _ | .sw _ _ _ => .store
  | .beq _ _ _ | .bne _ _ _ => .branch
  | .lui _ _ => .upperImmediate
  | .jal _ _ => .jumpAndLink
  | .ecall => .systemCall

/-- The executing unit of a kind (R106). -/
def execUnit : Instr → ExecUnit
  | .add _ _ _ | .sub _ _ _ | .slt _ _ _ | .xor _ _ _ | .or _ _ _ | .and _ _ _ => .aluArithmeticLogical
  | .mul _ _ _ | .mulh _ _ _ | .div _ _ _ | .rem _ _ _ => .aluArithmeticLogical
  | .sll _ _ _ | .srl _ _ _ | .sra _ _ _ => .shifterUnit
  | .addi _ _ _ | .slti _ _ _ | .xori _ _ _ | .ori _ _ _ | .andi _ _ _ => .aluArithmeticLogical
  | .slli _ _ _ | .srli _ _ _ | .srai _ _ _ => .shifterUnit
  | .lb _ _ _ | .lh _ _ _ | .lw _ _ _ | .sb _ _ _ | .sh _ _ _ | .sw _ _ _ => .memoryInterface
  | .beq _ _ _ | .bne _ _ _ | .jal _ _ => .branchJumpLogic
  | .lui _ _ => .wiring
  | .ecall => .blockControl

/-- The register a kind writes when it commits: the write port of the register_file (R23, R106). -/
def destReg : Instr → Option RegIdx
  | .add rd _ _ | .mul rd _ _ | .sub rd _ _ | .sll rd _ _ | .mulh rd _ _ | .slt rd _ _ | .xor rd _ _ => some rd
  | .div rd _ _ | .srl rd _ _ | .sra rd _ _ | .or rd _ _ | .rem rd _ _ | .and rd _ _ => some rd
  | .addi rd _ _ | .slli rd _ _ | .slti rd _ _ | .xori rd _ _ => some rd
  | .srli rd _ _ | .srai rd _ _ | .ori rd _ _ | .andi rd _ _ => some rd
  | .lb rd _ _ | .lh rd _ _ | .lw rd _ _ => some rd
  | .sb _ _ _ | .sh _ _ _ | .sw _ _ _ => none
  | .beq _ _ _ | .bne _ _ _ => none
  | .lui rd _ => some rd
  | .jal rd _ => some rd
  | .ecall => none

/-- The registers whose value a kind uses (R23). -/
def sourceRegs : Instr → List RegIdx
  | .add _ rs1 rs2 | .mul _ rs1 rs2 | .sub _ rs1 rs2 | .sll _ rs1 rs2 | .mulh _ rs1 rs2 | .slt _ rs1 rs2 => [rs1, rs2]
  | .xor _ rs1 rs2 | .div _ rs1 rs2 | .srl _ rs1 rs2 | .sra _ rs1 rs2 | .or _ rs1 rs2 => [rs1, rs2]
  | .rem _ rs1 rs2 | .and _ rs1 rs2 => [rs1, rs2]
  | .addi _ rs1 _ | .slli _ rs1 _ | .slti _ rs1 _ | .xori _ rs1 _ => [rs1]
  | .srli _ rs1 _ | .srai _ rs1 _ | .ori _ rs1 _ | .andi _ rs1 _ => [rs1]
  | .lb _ rs1 _ | .lh _ rs1 _ | .lw _ rs1 _ => [rs1]
  | .sb rs2 rs1 _ | .sh rs2 rs1 _ | .sw rs2 rs1 _ => [rs1, rs2]
  | .beq rs1 rs2 _ | .bne rs1 rs2 _ => [rs1, rs2]
  | .lui _ _ => []
  | .jal _ _ => []
  | .ecall => [selectorReg, argumentReg]

/-- The data access of a kind (R47, R106). -/
def dataAccess : Instr → Option Access
  | .lb _ _ _ => some (.read .byte)
  | .lh _ _ _ => some (.read .half)
  | .lw _ _ _ => some (.read .word)
  | .sb _ _ _ => some (.write .byte)
  | .sh _ _ _ => some (.write .half)
  | .sw _ _ _ => some (.write .word)
  | .add _ _ _ | .mul _ _ _ | .sub _ _ _ | .sll _ _ _ | .mulh _ _ _ | .slt _ _ _ | .xor _ _ _ => none
  | .div _ _ _ | .srl _ _ _ | .sra _ _ _ | .or _ _ _ | .rem _ _ _ | .and _ _ _ => none
  | .addi _ _ _ | .slli _ _ _ | .slti _ _ _ | .xori _ _ _ => none
  | .srli _ _ _ | .srai _ _ _ | .ori _ _ _ | .andi _ _ _ => none
  | .beq _ _ _ | .bne _ _ _ | .lui _ _ | .jal _ _ | .ecall => none

/-- The address of a kind's data access (R51, R106). -/
def dataAddress (i : Instr) (s : State) : Option Word :=
  match i with
  | .lb _ rs1 imm | .lh _ rs1 imm | .lw _ rs1 imm => some (loadAddress rs1 imm s)
  | .sb _ rs1 imm | .sh _ rs1 imm | .sw _ rs1 imm => some (storeAddress rs1 imm s)
  | .add _ _ _ | .mul _ _ _ | .sub _ _ _ | .sll _ _ _ | .mulh _ _ _ | .slt _ _ _ | .xor _ _ _ => none
  | .div _ _ _ | .srl _ _ _ | .sra _ _ _ | .or _ _ _ | .rem _ _ _ | .and _ _ _ => none
  | .addi _ _ _ | .slli _ _ _ | .slti _ _ _ | .xori _ _ _ => none
  | .srli _ _ _ | .srai _ _ _ | .ori _ _ _ | .andi _ _ _ => none
  | .beq _ _ _ | .bne _ _ _ | .lui _ _ | .jal _ _ | .ecall => none

/-- The indices driven to the two read ports of the register_file for a word: the constants (10, 11) for ecall, the
fields rs1 and rs2 for everything else (R23, R105). -/
def readPorts (word : Word) : RegIdx × RegIdx :=
  match familyOf (opcodeOf word) with
  | some .systemCall => (selectorReg, argumentReg)
  | _ => (rs1Of word, rs2Of word)

/-- The condition of a data read at an address, or none (R44). -/
def readCondition (w : Width) (a : Word) (s : State) : Option Condition :=
  (accessReject s.params s.params.alignCheckEn a w).map fun kind => .fail (.badRead a kind)

/-- The condition of a data write at an address, or none (R45). -/
def writeCondition (w : Width) (a : Word) (s : State) : Option Condition :=
  (accessReject s.params s.params.alignCheckEn a w).map fun kind => .fail (.badWrite a kind)

/-- The halting condition a valid instruction meets in a state, or none: then it commits (R280, R293). -/
def conditionOf (i : Instr) (s : State) : Option Condition :=
  match i with
  | .div _ rs1 rs2 => if divUndefined (s.reg rs1) (s.reg rs2) then some (.fail .arithUndefined) else none
  | .rem _ rs1 rs2 => if divUndefined (s.reg rs1) (s.reg rs2) then some (.fail .arithUndefined) else none
  | .lb _ rs1 imm => readCondition .byte (loadAddress rs1 imm s) s
  | .lh _ rs1 imm => readCondition .half (loadAddress rs1 imm s) s
  | .lw _ rs1 imm => readCondition .word (loadAddress rs1 imm s) s
  | .sb _ rs1 imm => writeCondition .byte (storeAddress rs1 imm s) s
  | .sh _ rs1 imm => writeCondition .half (storeAddress rs1 imm s) s
  | .sw _ rs1 imm => writeCondition .word (storeAddress rs1 imm s) s
  | .ecall =>
    if s.reg selectorReg = 1#32 then none
    else if s.reg selectorReg = 10#32 then some .exit
    else some (.fail (.unsupportedSyscall (s.reg selectorReg)))
  | .add _ _ _ | .mul _ _ _ | .sub _ _ _ | .sll _ _ _ | .mulh _ _ _ | .slt _ _ _ | .xor _ _ _ => none
  | .srl _ _ _ | .sra _ _ _ | .or _ _ _ | .and _ _ _ => none
  | .addi _ _ _ | .slli _ _ _ | .slti _ _ _ | .xori _ _ _ => none
  | .srli _ _ _ | .srai _ _ _ | .ori _ _ _ | .andi _ _ _ => none
  | .beq _ _ _ | .bne _ _ _ | .lui _ _ | .jal _ _ => none

end Sys2Proof.Machine
end

