-- ==== Sys2Proof/Safety.lean ====
section
/-! DEFINITION. The terms claims about runs are stated in: the machine's invariant and when a run has ended or failed
(when an instruction completes is `conditionOf` in Machine/Control.lean). -/

namespace Sys2Proof.Machine

/-- What holds of every state the machine can be brought to from a legal initial state: MEMORY_SPACE is in its range
(R6), the memory is in canonical form and lists only addresses that exist (R35), and all text is 7-bit ASCII (R28). -/
structure State.Inv (s : State) : Prop where
  params_wf : s.params.wf
  mem_wf : s.mem.wf
  mem_bounded : ∀ c ∈ s.mem, c.1 < s.params.memorySpace
  out_ascii : ∀ b ∈ s.out, b.toNat < 128

/-- The run has ended: the status has left RUNNING (R314). -/
def State.Halted (s : State) : Prop := s.status ≠ .running

/-- The run has ended with a failure (R280). -/
def State.HasFailed (s : State) : Prop := ∃ cause, s.status = .failed cause

end Sys2Proof.Machine
end

