-- ==== Sys2Proof/Certificates/Slice0/Obligations.lean ====
section
/-! DEFINITION. The statements for the provers. Registers, the pc and results are written as the rules write them, with
integers and `to32`; `u` and `sg` are the two readings of R8. Where a statement says which word selects an instruction,
the numeric opcodes and function codes are the spec's general knowledge G1 to G4 (log 13). -/

namespace Sys2Proof.Claim

open Sys2Proof.Machine

/-- The unsigned reading `u(v)` (R8). -/
abbrev u (v : Word) : Int := v.toNat

/-- The signed reading `s(v)` (R8). -/
abbrev sg {n : Nat} (v : BitVec n) : Int := v.toInt

/-- The bits `v[lo+n-1:lo]` as a number (R7). -/
def bits (v : Nat) (lo n : Nat) : Nat := v / 2 ^ lo % 2 ^ n

/-- `x[rd] <- v; pc <- to32(pc + 4)`, everything else as before. -/
def put (rd : RegIdx) (v : Word) (s : State) : State := { s with regs := s.regs.set rd v, pc := to32 (u s.pc + 4) }

/-- `x[rd] <- to32(z); pc <- to32(pc + 4)`, everything else as before. -/
def wrote (rd : RegIdx) (z : Int) (s : State) : State := put rd (to32 z) s

/-- `pc <- to32(z)`, everything else as before. -/
def moved (z : Int) (s : State) : State := { s with pc := to32 z }

/-- A halt: text appended, a final status, everything else as before (R289). -/
def halted (text : List Byte) (final : Status) (s : State) : State := { s with out := s.out ++ text, status := final }

/-- `Invalid Instruction: 0x` (R151). -/
def invalidText : List Byte :=
  ascii ['I', 'n', 'v', 'a', 'l', 'i', 'd', ' ',
    'I', 'n', 's', 't', 'r', 'u', 'c', 't', 'i', 'o', 'n', ':', ' ', '0', 'x']

/-- `Bad Read. Address: 0x` (R60). -/
def badReadText : List Byte :=
  ascii ['B', 'a', 'd', ' ', 'R', 'e', 'a', 'd', '.', ' ',
    'A', 'd', 'd', 'r', 'e', 's', 's', ':', ' ', '0', 'x']

/-- `Bad Write. Address: 0x` (R60). -/
def badWriteText : List Byte :=
  ascii ['B', 'a', 'd', ' ', 'W', 'r', 'i', 't', 'e', '.', ' ',
    'A', 'd', 'd', 'r', 'e', 's', 's', ':', ' ', '0', 'x']

/-- The halt of a rejected read (R60, R283). -/
def readHalt (a : Word) (kind : AccessFault) (s : State) : State :=
  halted (badReadText ++ hex8 a ++ [0x0A]) (.failed (.badRead a kind)) s

/-- The halt of a rejected write (R60, R284). -/
def writeHalt (a : Word) (kind : AccessFault) (s : State) : State :=
  halted (badWriteText ++ hex8 a ++ [0x0A]) (.failed (.badWrite a kind)) s

/-- The halt of an undefined division (R197, R287). -/
def arithHalt (s : State) : State := halted textArith (.failed .arithUndefined) s

/-- The operands of an undefined division (R197). -/
abbrev Undefined (a b : Word) : Prop := sg b = 0 ∨ (sg a = -2 ^ 31 ∧ sg b = -1)

/-- An access of n bytes at a is in bounds (R42). -/
abbrev InBounds (a : Word) (n : Nat) (s : State) : Prop := a.toNat + n ≤ s.params.memorySpace

/-- An access of n bytes at a passes the alignment check of loads and stores (R43). -/
abbrev AlignOk (a : Word) (n : Nat) (s : State) : Prop := s.params.alignCheckEn = true → a.toNat % n = 0

/-- An access of n bytes at a meets the alignment failure and not the bounds failure (R46, R285). -/
abbrev Misaligned (a : Word) (n : Nat) (s : State) : Prop :=
  InBounds a n s ∧ s.params.alignCheckEn = true ∧ a.toNat % n ≠ 0

/-- The byte of memory at a. -/
abbrev at_ (s : State) (a : Nat) : Byte := s.mem.read a

/-- A store of the low n bytes of v at a: the pc advances, the bytes at a .. a+n-1 are those of v in little-endian order,
every other byte and everything else is as before (R41, R45). -/
def Stores (n a : Nat) (v : Word) (s : State) (r : Result) : Prop :=
  ∃ t, r = .next t ∧ t.pc = to32 (u s.pc + 4) ∧ t.regs = s.regs ∧ t.status = s.status ∧ t.out = s.out ∧
    t.commands = s.commands ∧ t.params = s.params ∧
    (∀ i, i < n → at_ t (a + i) = v.extractLsb' (8 * i) 8) ∧
    (∀ x, x < a ∨ a + n ≤ x → at_ t x = at_ s x)

/-- The words of opcode 0x33 with these function codes are this instruction, with their own register fields (R81). -/
def SelectsR (f3 : BitVec 3) (f7 : BitVec 7) (mk : RegIdx → RegIdx → RegIdx → Instr) : Prop :=
  ∀ w, opcodeOf w = 0x33#7 → funct3Of w = f3 → funct7Of w = f7 → decode w = .ok (mk (rdOf w) (rs1Of w) (rs2Of w))

/-- The words of this opcode and funct3 are this instruction, with the 12-bit I immediate (R82, R83). -/
def SelectsI (op : BitVec 7) (f3 : BitVec 3) (mk : RegIdx → RegIdx → BitVec 12 → Instr) : Prop :=
  ∀ w, opcodeOf w = op → funct3Of w = f3 → decode w = .ok (mk (rdOf w) (rs1Of w) (rawI w))

/-- The words of opcode 0x23 and this funct3 are this instruction, with the split 12-bit offset (R84). -/
def SelectsS (f3 : BitVec 3) (mk : RegIdx → RegIdx → BitVec 12 → Instr) : Prop :=
  ∀ w, opcodeOf w = 0x23#7 → funct3Of w = f3 → decode w = .ok (mk (rs2Of w) (rs1Of w) (rawS w))

/-- The words of opcode 0x63 and this funct3 are this instruction, with the 13-bit offset (R85). -/
def SelectsB (f3 : BitVec 3) (mk : RegIdx → RegIdx → BitVec 13 → Instr) : Prop :=
  ∀ w, opcodeOf w = 0x63#7 → funct3Of w = f3 → decode w = .ok (mk (rs1Of w) (rs2Of w) (rawB w))

/-- The rows of spec/opcode_table.json: mnemonic, match, mask. -/
def table : List (List Char × Word × Word) :=
  [(['a', 'd', 'd'], 0x00000033, 0xFE00707F), (['m', 'u', 'l'], 0x02000033, 0xFE00707F), (['s', 'u', 'b'], 0x40000033, 0xFE00707F),
   (['s', 'l', 'l'], 0x00001033, 0xFE00707F), (['m', 'u', 'l', 'h'], 0x02001033, 0xFE00707F), (['s', 'l', 't'], 0x00002033, 0xFE00707F),
   (['x', 'o', 'r'], 0x00004033, 0xFE00707F), (['d', 'i', 'v'], 0x02004033, 0xFE00707F), (['s', 'r', 'l'], 0x00005033, 0xFE00707F),
   (['s', 'r', 'a'], 0x40005033, 0xFE00707F), (['o', 'r'], 0x00006033, 0xFE00707F), (['r', 'e', 'm'], 0x02006033, 0xFE00707F),
   (['a', 'n', 'd'], 0x00007033, 0xFE00707F)] ++
  [(['a', 'd', 'd', 'i'], 0x00000013, 0x0000707F), (['s', 'l', 'l', 'i'], 0x00001013, 0x0000707F), (['s', 'l', 't', 'i'], 0x00002013, 0x0000707F),
   (['x', 'o', 'r', 'i'], 0x00004013, 0x0000707F), (['s', 'r', 'l', 'i'], 0x00005013, 0xFE00707F), (['s', 'r', 'a', 'i'], 0x40005013, 0xFE00707F),
   (['o', 'r', 'i'], 0x00006013, 0x0000707F), (['a', 'n', 'd', 'i'], 0x00007013, 0x0000707F)] ++
  [(['l', 'b'], 0x00000003, 0x0000707F), (['l', 'h'], 0x00001003, 0x0000707F), (['l', 'w'], 0x00002003, 0x0000707F),
   (['s', 'b'], 0x00000023, 0x0000707F), (['s', 'h'], 0x00001023, 0x0000707F), (['s', 'w'], 0x00002023, 0x0000707F),
   (['b', 'e', 'q'], 0x00000063, 0x0000707F), (['b', 'n', 'e'], 0x00001063, 0x0000707F), (['l', 'u', 'i'], 0x00000037, 0x0000007F),
   (['j', 'a', 'l'], 0x0000006F, 0x0000007F), (['e', 'c', 'a', 'l', 'l'], 0x00000073, 0x0000007F)]

/-- The rows of R102: opcode, family, format. -/
def families : List (BitVec 7 × Family × Option Format) :=
  [(0x33, .registerRegister, some .R), (0x13, .immediateExceptLoad, some .I), (0x03, .load, some .I),
   (0x23, .store, some .S), (0x63, .branch, some .B), (0x37, .upperImmediate, some .U), (0x6F, .jumpAndLink, some .J),
   (0x73, .systemCall, none)]

/-- The bits of a word its instruction does not look at: word[31:25] of slli, word[31:7] of ecall (R87). -/
def ignoredMask : Instr → Word
  | .slli _ _ _ => 0xFE000000
  | .ecall => 0xFFFFFF80
  | _ => 0

/-- The number a list of decimal digits spells. -/
def readDec (text : List Byte) : Nat := text.foldl (fun n b => 10 * n + (b.toNat - 0x30)) 0

/-- The number a list of lower-case hexadecimal digits spells. -/
def readHex (text : List Byte) : Nat :=
  text.foldl (fun n b => 16 * n + (if b.toNat < 0x3A then b.toNat - 0x30 else b.toNat - 0x61 + 10)) 0

/-- A decimal digit, 0 to 9. -/
def IsDec (b : Byte) : Prop := 0x30 ≤ b.toNat ∧ b.toNat ≤ 0x39

/-- A lower-case hexadecimal digit. -/
def IsHex (b : Byte) : Prop := IsDec b ∨ (0x61 ≤ b.toNat ∧ b.toNat ≤ 0x66)

/-- The register-register instructions over three registers (R2). -/
def regRegForms (rd rs1 rs2 : RegIdx) : List Instr :=
  [.add rd rs1 rs2, .mul rd rs1 rs2, .sub rd rs1 rs2, .sll rd rs1 rs2, .mulh rd rs1 rs2, .slt rd rs1 rs2,
   .xor rd rs1 rs2, .div rd rs1 rs2, .srl rd rs1 rs2, .sra rd rs1 rs2, .or rd rs1 rs2, .rem rd rs1 rs2,
   .and rd rs1 rs2]

/-- The register-register instructions that never halt. -/
def plainRegRegForms (rd rs1 rs2 : RegIdx) : List Instr :=
  [.add rd rs1 rs2, .mul rd rs1 rs2, .sub rd rs1 rs2, .sll rd rs1 rs2, .mulh rd rs1 rs2, .slt rd rs1 rs2,
   .xor rd rs1 rs2, .srl rd rs1 rs2, .sra rd rs1 rs2, .or rd rs1 rs2, .and rd rs1 rs2]

/-- The register-immediate instructions with a 12-bit immediate. -/
def immForms (rd rs1 : RegIdx) (imm : BitVec 12) : List Instr :=
  [.addi rd rs1 imm, .slti rd rs1 imm, .xori rd rs1 imm, .ori rd rs1 imm, .andi rd rs1 imm]

/-- The register-immediate instructions with a shift amount. -/
def shiftForms (rd rs1 : RegIdx) (shamt : BitVec 5) : List Instr :=
  [.slli rd rs1 shamt, .srli rd rs1 shamt, .srai rd rs1 shamt]

/-- The loads. -/
def loadForms (rd rs1 : RegIdx) (imm : BitVec 12) : List Instr := [.lb rd rs1 imm, .lh rd rs1 imm, .lw rd rs1 imm]

/-- The stores with the bytes each writes. -/
def storeForms (rs2 rs1 : RegIdx) (imm : BitVec 12) : List (Instr × Nat) :=
  [(.sb rs2 rs1 imm, 1), (.sh rs2 rs1 imm, 2), (.sw rs2 rs1 imm, 4)]

/-- Every register but rd, every byte of memory, the offered transactions and the parameters are as before. -/
def KeepsAllBut (rd : RegIdx) (s t : State) : Prop :=
  (∀ q, q ≠ rd → t.reg q = s.reg q) ∧ (∀ a, at_ t a = at_ s a) ∧ t.commands = s.commands ∧ t.params = s.params

/-- Every register, the offered transactions and the parameters are as before. -/
def KeepsRegs (s t : State) : Prop := (∀ q, t.reg q = s.reg q) ∧ t.commands = s.commands ∧ t.params = s.params

/-- Where a kind sends the pc when it commits (R25). -/
def pcAfter (i : Instr) (s : State) : Word :=
  match i with
  | .beq rs1 rs2 off => if s.reg rs1 = s.reg rs2 then to32 (u s.pc + sg off) else to32 (u s.pc + 4)
  | .bne rs1 rs2 off => if s.reg rs1 = s.reg rs2 then to32 (u s.pc + 4) else to32 (u s.pc + sg off)
  | .jal _ off => to32 (u s.pc + sg off)
  | _ => to32 (u s.pc + 4)

end Sys2Proof.Claim

open Sys2Proof Sys2Proof.Machine Sys2Proof.Claim

/-! ### Encoding -/

/-- Words of the spec's own examples, one or more per family, decode to the instructions they stand for; three invalid
words do not decode. Derived from spec/95_test_vectors.md section 2.1 and spec/30_encoding.md R92. -/
def Obligations.SpecWordsDecode : Prop :=
  decode 0x003100B3#32 = .ok (.add 1 2 3) ∧ decode 0x40628433#32 = .ok (.sub 8 5 6) ∧
  decode 0x00510093#32 = .ok (.addi 1 2 5) ∧ decode 0x40335293#32 = .ok (.srai 5 6 3) ∧
  decode 0x7E409193#32 = .ok (.slli 3 1 4) ∧ decode 0xFFC10283#32 = .ok (.lb 5 2 0xFFC) ∧
  decode 0xFE20AE23#32 = .ok (.sw 2 1 0xFFC) ∧ decode 0xFE209CE3#32 = .ok (.bne 1 2 0x1FF8) ∧
  decode 0xDEADC2B7#32 = .ok (.lui 5 0xDEADC) ∧ decode 0xFFDFF0EF#32 = .ok (.jal 1 0x1FFFFC) ∧
  decode 0x30200073#32 = .ok .ecall ∧ decode 0x063100B3#32 = .error .unknownFunction ∧
  decode 0x2040D193#32 = .error .unknownFunction ∧ decode 0x00000067#32 = .error .unknownOpcode

/-- Encoding the fields of any instruction at any operands the encoding admits and decoding the word gives the instruction
back; decoding a word and re-encoding gives the word with the ignored bits of slli and ecall zero. Derived: R108, whose
converse the spec marks as its own inference. -/
def Obligations.DecodeEncodeAgree : Prop :=
  (∀ i : Instr, i.wf = true → decode (encode i) = .ok i) ∧
  (∀ (w : Word) (i : Instr), decode w = .ok i → i.wf = true ∧ encode i = w &&& ~~~(ignoredMask i))

/-- The decoder reads the opcode table: for every word and every row, the word's kind is the row's mnemonic exactly when
`word & mask = match`; a word is INVALID exactly when it matches no row. Derived: the numbers are G1 to G4, the choice of
tested bits the spec's decision D12. -/
def Obligations.DecodeMatchesTable : Prop :=
  (∀ (w : Word) (row : List Char × Word × Word), row ∈ table →
    ((∃ i, decode w = .ok i ∧ mnemonic i = row.1) ↔ w &&& row.2.2 = row.2.1)) ∧
  (∀ w : Word, (∃ r, decode w = .error r) ↔ ∀ row ∈ table, w &&& row.2.2 ≠ row.2.1)

/-- The decoder's outputs agree with each other. The family and the format are functions of the opcode alone, by the eight
rows of R102, and any other opcode has none. For a valid word they are those of the decoded kind; the kind's destination is
the word's rd field exactly when the format has one (R, I, U, J), and none under S, B and ecall; and the read ports carry the
registers the kind uses, in order (R105). Derived: the ports are the spec's decision D1. -/
def Obligations.ControlAgreesWithDecoder : Prop :=
  (∀ (op : BitVec 7) (f : Family), familyOf op = some f ↔ (op, f, f.format) ∈ families) ∧
  ∀ (w : Word) (i : Instr), decode w = .ok i →
    familyOf (opcodeOf w) = some (family i) ∧
    ((family i).format ∈ [some .R, some .I, some .U, some .J] → destReg i = some (rdOf w)) ∧
    ((family i).format ∈ [some .S, some .B, none] → destReg i = none) ∧
    (sourceRegs i = [] ∨ sourceRegs i = [(readPorts w).1] ∨ sourceRegs i = [(readPorts w).1, (readPorts w).2])

/-! ### sign_extender and immediate_reconstructor -/

/-- The sign_extender: the low N bits are those of the input, every bit above is bit N-1, the signed value is
`v[N-1:0] - 2^N * v[N-1]` and lies in its range, and input bits at N and above do not matter. Derived: the host width 32
and the masking are the spec's decision D2. -/
def Obligations.SignExtenderCopiesSign : Prop :=
  ∀ (n : Nat) (v : Word), 1 ≤ n → n ≤ 32 →
    (∀ i, i < n → (sext n v).getLsbD i = v.getLsbD i) ∧
    (∀ i, n ≤ i → i < 32 → (sext n v).getLsbD i = v.getLsbD (n - 1)) ∧
    sg (sext n v) = (bits v.toNat 0 n : Int) - 2 ^ n * (bits v.toNat (n - 1) 1 : Int) ∧
    -2 ^ (n - 1) ≤ sg (sext n v) ∧ sg (sext n v) ≤ 2 ^ (n - 1) - 1 ∧
    (∀ v' : Word, bits v'.toNat 0 n = bits v.toNat 0 n → sext n v' = sext n v)

/-- The immediates as sums of the word's bit groups: I contiguous, S two groups, B and J four groups with a zero low bit,
U not extended, the shift amount five bits (R122 to R127, on the bit positions G1). -/
def Obligations.ImmediatesFromBitGroups : Prop :=
  ∀ w : Word,
    sg (immI (rawI w)) = (bits w.toNat 20 11 : Int) - 2048 * bits w.toNat 31 1 ∧
    sg (immS (rawS w)) = (bits w.toNat 7 5 : Int) + 32 * bits w.toNat 25 6 - 2048 * bits w.toNat 31 1 ∧
    sg (immB (rawB w)) = 2 * (bits w.toNat 8 4 : Int) + 32 * bits w.toNat 25 6 + 2048 * bits w.toNat 7 1
      - 4096 * bits w.toNat 31 1 ∧
    sg (immJ (rawJ w)) = 2 * (bits w.toNat 21 10 : Int) + 2048 * bits w.toNat 20 1 + 4096 * bits w.toNat 12 8
      - 1048576 * bits w.toNat 31 1 ∧
    (imm20Of w).toNat = bits w.toNat 12 20 ∧ (shamtOf w).toNat = bits w.toNat 20 5

/-- R129: the four round trips, for every register and function field: the I and S immediates at every value, the B and J
offsets at every even value. -/
def Obligations.ImmediateRoundTrips : Prop :=
  (∀ (v : Int) (rs1 rd : RegIdx) (f3 : BitVec 3) (op : BitVec 7), -2048 ≤ v → v ≤ 2047 →
    sg (immI (rawI (encI (BitVec.ofInt 12 v) rs1 f3 rd op))) = v) ∧
  (∀ (v : Int) (rs1 rs2 : RegIdx) (f3 : BitVec 3) (op : BitVec 7), -2048 ≤ v → v ≤ 2047 →
    sg (immS (rawS (encS (BitVec.ofInt 12 v) rs2 rs1 f3 op))) = v) ∧
  (∀ (o : Int) (rs1 rs2 : RegIdx) (f3 : BitVec 3) (op : BitVec 7), -4096 ≤ o → o ≤ 4094 → o % 2 = 0 →
    sg (immB (rawB (encB (BitVec.ofInt 13 o) rs2 rs1 f3 op))) = o) ∧
  (∀ (o : Int) (rd : RegIdx) (op : BitVec 7), -1048576 ≤ o → o ≤ 1048574 → o % 2 = 0 →
    sg (immJ (rawJ (encJ (BitVec.ofInt 21 o) rd op))) = o)

/-! ### Register-register instructions -/

/-- R181, R183: add and sub wrap modulo 2^32. -/
def Obligations.AddSubWrap : Prop :=
  SelectsR 0 0x00 .add ∧ SelectsR 0 0x20 .sub ∧
  ∀ (rd rs1 rs2 : RegIdx) (s : State),
    exec (.add rd rs1 rs2) s = .next (wrote rd (u (s.reg rs1) + u (s.reg rs2)) s) ∧
    exec (.sub rd rs1 rs2) s = .next (wrote rd (u (s.reg rs1) - u (s.reg rs2)) s)

/-- R182, R185: mul is the low, mulh the high word of the signed 64-bit product. -/
def Obligations.MulMulhHalvesOfProduct : Prop :=
  SelectsR 0 0x01 .mul ∧ SelectsR 1 0x01 .mulh ∧
  ∀ (rd rs1 rs2 : RegIdx) (s : State),
    exec (.mul rd rs1 rs2) s = .next (wrote rd (sg (s.reg rs1) * sg (s.reg rs2)) s) ∧
    exec (.mulh rd rs1 rs2) s = .next (wrote rd (sg (s.reg rs1) * sg (s.reg rs2) / 2 ^ 32) s)

/-- The amount is the low five bits of x[rs2]; sll and srl are logical, sra floors the signed value (R184, R189, R190).
Derived: that sra too takes the low five bits only is the spec's decision D11 (R195, log 14). -/
def Obligations.RegisterShiftsByLowFiveBits : Prop :=
  SelectsR 1 0x00 .sll ∧ SelectsR 5 0x00 .srl ∧ SelectsR 5 0x20 .sra ∧
  ∀ (rd rs1 rs2 : RegIdx) (s : State),
    exec (.sll rd rs1 rs2) s = .next (wrote rd (u (s.reg rs1) * 2 ^ bits (s.reg rs2).toNat 0 5) s) ∧
    exec (.srl rd rs1 rs2) s = .next (wrote rd (u (s.reg rs1) / 2 ^ bits (s.reg rs2).toNat 0 5) s) ∧
    exec (.sra rd rs1 rs2) s = .next (wrote rd (sg (s.reg rs1) / 2 ^ bits (s.reg rs2).toNat 0 5) s)

/-- R186, R213: slt and slti compare the signed values, 1 if less, else 0. -/
def Obligations.SetLessThanSigned : Prop :=
  SelectsR 2 0x00 .slt ∧ SelectsI 0x13 2 .slti ∧
  (∀ (rd rs1 rs2 : RegIdx) (s : State),
    exec (.slt rd rs1 rs2) s = .next (wrote rd (if sg (s.reg rs1) < sg (s.reg rs2) then 1 else 0) s)) ∧
  (∀ (rd rs1 : RegIdx) (imm : BitVec 12) (s : State),
    exec (.slti rd rs1 imm) s = .next (wrote rd (if sg (s.reg rs1) < sg imm then 1 else 0) s))

/-- R187, R191, R193: xor, or, and work bit by bit. -/
def Obligations.RegisterLogicBitwise : Prop :=
  SelectsR 4 0x00 .xor ∧ SelectsR 6 0x00 .or ∧ SelectsR 7 0x00 .and ∧
  ∀ (rd rs1 rs2 : RegIdx) (s : State), ∃ x o n : Word,
    exec (.xor rd rs1 rs2) s = .next (put rd x s) ∧ exec (.or rd rs1 rs2) s = .next (put rd o s) ∧
    exec (.and rd rs1 rs2) s = .next (put rd n s) ∧
    ∀ k, k < 32 → x.getLsbD k = ((s.reg rs1).getLsbD k != (s.reg rs2).getLsbD k) ∧
      o.getLsbD k = ((s.reg rs1).getLsbD k || (s.reg rs2).getLsbD k) ∧
      n.getLsbD k = ((s.reg rs1).getLsbD k && (s.reg rs2).getLsbD k)

/-- div truncates toward zero where defined; otherwise ArithUndefined, raised before any write: the line TEXT_ARITH, whose
wording is open, and the status, nothing else (R188). Derived: the truncation is the spec's decision D10, the halt D9, the
state kept by it D16 (R197, R289, log 14). -/
def Obligations.DivTruncatesOrHalts : Prop :=
  SelectsR 4 0x01 .div ∧
  ∀ (rd rs1 rs2 : RegIdx) (s : State),
    (¬ Undefined (s.reg rs1) (s.reg rs2) →
      exec (.div rd rs1 rs2) s = .next (wrote rd ((sg (s.reg rs1)).tdiv (sg (s.reg rs2))) s)) ∧
    (Undefined (s.reg rs1) (s.reg rs2) → exec (.div rd rs1 rs2) s = .next (arithHalt s))

/-- rem is the dividend less divisor times quotient where defined; otherwise ArithUndefined as for div (R192). Derived: the
quotient's truncation is the spec's decision D10, the halt D9, the halt for -2^31 by -1 D28, the state kept by it D16 (R197,
R289, log 14). -/
def Obligations.RemFollowsDividendOrHalts : Prop :=
  SelectsR 6 0x01 .rem ∧
  ∀ (rd rs1 rs2 : RegIdx) (s : State),
    (¬ Undefined (s.reg rs1) (s.reg rs2) →
      exec (.rem rd rs1 rs2) s =
        .next (wrote rd (sg (s.reg rs1) - sg (s.reg rs2) * (sg (s.reg rs1)).tdiv (sg (s.reg rs2))) s)) ∧
    (Undefined (s.reg rs1) (s.reg rs2) → exec (.rem rd rs1 rs2) s = .next (arithHalt s))

/-! ### Register-immediate instructions -/

/-- R211: addi wraps like add; the immediate is signed. -/
def Obligations.AddiWraps : Prop :=
  SelectsI 0x13 0 .addi ∧
  ∀ (rd rs1 : RegIdx) (imm : BitVec 12) (s : State),
    exec (.addi rd rs1 imm) s = .next (wrote rd (u (s.reg rs1) + sg imm) s)

/-- R214, R217, R218: xori, ori, andi work bit by bit; bits 31:12 of the operand are the immediate's bit 11. -/
def Obligations.ImmediateLogicBitwise : Prop :=
  SelectsI 0x13 4 .xori ∧ SelectsI 0x13 6 .ori ∧ SelectsI 0x13 7 .andi ∧
  ∀ (rd rs1 : RegIdx) (imm : BitVec 12) (s : State), ∃ x o n : Word,
    exec (.xori rd rs1 imm) s = .next (put rd x s) ∧ exec (.ori rd rs1 imm) s = .next (put rd o s) ∧
    exec (.andi rd rs1 imm) s = .next (put rd n s) ∧
    ∀ k, k < 32 → x.getLsbD k = ((s.reg rs1).getLsbD k != imm.getLsbD (min k 11)) ∧
      o.getLsbD k = ((s.reg rs1).getLsbD k || imm.getLsbD (min k 11)) ∧
      n.getLsbD k = ((s.reg rs1).getLsbD k && imm.getLsbD (min k 11))

/-- The amount is word[24:20]; slli takes any word[31:25], srli 0x00, srai 0x20, and another value under funct3 5 is no
instruction (R212, R215, R216). Derived: that slli ignores word[31:25] and that all of it is tested under funct3 5 is the
spec's decision D12 (R82, log 14, log 20). -/
def Obligations.ImmediateShiftsByShamt : Prop :=
  (∀ w, opcodeOf w = 0x13#7 → funct3Of w = 1 → decode w = .ok (.slli (rdOf w) (rs1Of w) (shamtOf w))) ∧
  (∀ w, opcodeOf w = 0x13#7 → funct3Of w = 5 → funct7Of w = 0x00 → decode w = .ok (.srli (rdOf w) (rs1Of w) (shamtOf w))) ∧
  (∀ w, opcodeOf w = 0x13#7 → funct3Of w = 5 → funct7Of w = 0x20 → decode w = .ok (.srai (rdOf w) (rs1Of w) (shamtOf w))) ∧
  (∀ w, opcodeOf w = 0x13#7 → funct3Of w = 5 → funct7Of w ≠ 0x00 → funct7Of w ≠ 0x20 →
    decode w = .error .unknownFunction) ∧
  ∀ (rd rs1 : RegIdx) (shamt : BitVec 5) (s : State),
    exec (.slli rd rs1 shamt) s = .next (wrote rd (u (s.reg rs1) * 2 ^ shamt.toNat) s) ∧
    exec (.srli rd rs1 shamt) s = .next (wrote rd (u (s.reg rs1) / 2 ^ shamt.toNat) s) ∧
    exec (.srai rd rs1 shamt) s = .next (wrote rd (sg (s.reg rs1) / 2 ^ shamt.toNat) s)

/-- Register 0 is an ordinary register: what is written to any index persists and is read back (R21); addi x0, add over x0,
jal x0 and lui x0 write it and read it. Derived: the instances of addi, add and jal are among the consequences R21 marks as
an inference of its own, that of lui follows from R265. -/
def Obligations.RegisterZeroOrdinary : Prop :=
  (∀ (s : State) (r q : RegIdx) (v : Word), (s.setReg r v).reg q = if q = r then v else s.reg q) ∧
  (∀ s : State,
    exec (.addi 0 0 5) s = .next (wrote 0 (u (s.reg 0) + 5) s) ∧
    exec (.add 5 0 0) s = .next (wrote 5 (2 * u (s.reg 0)) s) ∧
    exec (.jal 0 8) s = .next { s with regs := s.regs.set 0 (to32 (u s.pc + 4)), pc := to32 (u s.pc + 8) } ∧
    exec (.lui 0 0) s = .next (wrote 0 0 s))

/-! ### Loads and stores -/

/-- The effective address of every load and store is the base register plus the signed displacement, modulo 2^32.
Derived: wrapping at 32 bits is the spec's decision D4. -/
def Obligations.EffectiveAddressWraps : Prop :=
  ∀ (rs1 : RegIdx) (imm : BitVec 12) (s : State),
    loadAddress rs1 imm s = to32 (u (s.reg rs1) + sg imm) ∧ storeAddress rs1 imm s = to32 (u (s.reg rs1) + sg imm)

/-- lb loads one byte, sign-extended; an access out of bounds halts; alignment never matters (R231). Derived: of the halt, the
line's newline and spelling are the spec's decision D14, the kept pc and registers D16 (log 14), and the sub-kind in the
status is the model's choice (log 11). -/
def Obligations.LbSignExtendsByte : Prop :=
  SelectsI 0x03 0 .lb ∧
  ∀ (rd rs1 : RegIdx) (imm : BitVec 12) (s : State) (a : Word), a = to32 (u (s.reg rs1) + sg imm) →
    (InBounds a 1 s → exec (.lb rd rs1 imm) s = .next (wrote rd (sg (at_ s a.toNat)) s)) ∧
    (¬ InBounds a 1 s → exec (.lb rd rs1 imm) s = .next (readHalt a .bounds s))

/-- lh loads two bytes, little-endian, sign-extended; out of bounds, or misaligned under the strap, it halts (R232). Derived: the
rejection of an access that straddles the end is the spec's decision D7, bounds before alignment D8, the line's newline and
spelling D14, the kept state D16 (log 14), and the sub-kind in the status is the model's choice (log 11). -/
def Obligations.LhSignExtendsHalf : Prop :=
  SelectsI 0x03 1 .lh ∧
  ∀ (rd rs1 : RegIdx) (imm : BitVec 12) (s : State) (a : Word), a = to32 (u (s.reg rs1) + sg imm) →
    (InBounds a 2 s → AlignOk a 2 s →
      exec (.lh rd rs1 imm) s = .next (wrote rd (sg (at_ s (a.toNat + 1) ++ at_ s a.toNat)) s)) ∧
    (¬ InBounds a 2 s → exec (.lh rd rs1 imm) s = .next (readHalt a .bounds s)) ∧
    (Misaligned a 2 s → exec (.lh rd rs1 imm) s = .next (readHalt a .alignment s))

/-- lw loads four bytes, little-endian; out of bounds, or misaligned under the strap, it halts (R233). Derived: the
rejection of an access that straddles the end is the spec's decision D7, bounds before alignment D8, the line's newline and
spelling D14, the kept state D16 (log 14), and the sub-kind in the status is the model's choice (log 11). -/
def Obligations.LwLoadsWord : Prop :=
  SelectsI 0x03 2 .lw ∧
  ∀ (rd rs1 : RegIdx) (imm : BitVec 12) (s : State) (a : Word), a = to32 (u (s.reg rs1) + sg imm) →
    (InBounds a 4 s → AlignOk a 4 s →
      exec (.lw rd rs1 imm) s = .next (wrote rd ((at_ s a.toNat).toNat + 2 ^ 8 * (at_ s (a.toNat + 1)).toNat +
        2 ^ 16 * (at_ s (a.toNat + 2)).toNat + 2 ^ 24 * (at_ s (a.toNat + 3)).toNat) s)) ∧
    (¬ InBounds a 4 s → exec (.lw rd rs1 imm) s = .next (readHalt a .bounds s)) ∧
    (Misaligned a 4 s → exec (.lw rd rs1 imm) s = .next (readHalt a .alignment s))

/-- sb stores the low byte of x[rs2] and changes no other byte; out of bounds it halts and stores nothing (R234). Derived: of
the halt, the line's newline and spelling are the spec's decision D14, the kept pc and registers D16 (log 14), and the
sub-kind in the status is the model's choice (log 11). -/
def Obligations.SbStoresLowByte : Prop :=
  SelectsS 0 .sb ∧
  ∀ (rs2 rs1 : RegIdx) (imm : BitVec 12) (s : State) (a : Word), a = to32 (u (s.reg rs1) + sg imm) →
    (s.mem.wf → InBounds a 1 s → Stores 1 a.toNat (s.reg rs2) s (exec (.sb rs2 rs1 imm) s)) ∧
    (¬ InBounds a 1 s → exec (.sb rs2 rs1 imm) s = .next (writeHalt a .bounds s))

/-- sh stores the low two bytes of x[rs2]; out of bounds, or misaligned under the strap, neither is written (R235). Derived: the
rejection of an access that straddles the end is the spec's decision D7, bounds before alignment D8, the line's newline and
spelling D14, the kept state D16 (log 14), and the sub-kind in the status is the model's choice (log 11). -/
def Obligations.ShStoresLowHalf : Prop :=
  SelectsS 1 .sh ∧
  ∀ (rs2 rs1 : RegIdx) (imm : BitVec 12) (s : State) (a : Word), a = to32 (u (s.reg rs1) + sg imm) →
    (s.mem.wf → InBounds a 2 s → AlignOk a 2 s → Stores 2 a.toNat (s.reg rs2) s (exec (.sh rs2 rs1 imm) s)) ∧
    (¬ InBounds a 2 s → exec (.sh rs2 rs1 imm) s = .next (writeHalt a .bounds s)) ∧
    (Misaligned a 2 s → exec (.sh rs2 rs1 imm) s = .next (writeHalt a .alignment s))

/-- sw stores all four bytes of x[rs2], the most significant at a+3, and lw at the same address into any register gives the
word back; out of bounds, or misaligned under the strap, no byte is written (R236, R53). Derived: the
rejection of an access that straddles the end is the spec's decision D7, bounds before alignment D8, the line's newline and
spelling D14, the kept state D16 (log 14), and the sub-kind in the status is the model's choice (log 11). -/
def Obligations.SwStoresWordLwReadsBack : Prop :=
  SelectsS 2 .sw ∧
  ∀ (rs2 rs1 : RegIdx) (imm : BitVec 12) (s : State) (a : Word), a = to32 (u (s.reg rs1) + sg imm) →
    (s.mem.wf → InBounds a 4 s → AlignOk a 4 s →
      Stores 4 a.toNat (s.reg rs2) s (exec (.sw rs2 rs1 imm) s) ∧
      ∀ (rd : RegIdx) (t : State), exec (.sw rs2 rs1 imm) s = .next t →
        exec (.lw rd rs1 imm) t = .next (put rd (s.reg rs2) t)) ∧
    (¬ InBounds a 4 s → exec (.sw rs2 rs1 imm) s = .next (writeHalt a .bounds s)) ∧
    (Misaligned a 4 s → exec (.sw rs2 rs1 imm) s = .next (writeHalt a .alignment s))

/-- The checks of the memory interface: bounds first and always, alignment only when checked and in bounds. Derived: that
every byte must be in bounds is the spec's decision D7, the order D8. -/
def Obligations.AccessChecksBoundsFirst : Prop :=
  ∀ (p : Params) (check : Bool) (a : Word) (w : Width),
    (accessReject p check a w = some .bounds ↔ p.memorySpace < a.toNat + w.bytes) ∧
    (accessReject p check a w = some .alignment ↔
      a.toNat + w.bytes ≤ p.memorySpace ∧ check = true ∧ a.toNat % w.bytes ≠ 0)

/-- After a store of any width, a read of any width inside it sees the stored bytes, and a read outside it the bytes
from before. Derived: R48, an inference the spec marks as its own. -/
def Obligations.MixedWidthsSeeSameBytes : Prop :=
  ∀ (check : Bool) (a b : Word) (w w' : Width) (v : Word) (s t : State), s.mem.wf →
    memWrite check a w v s = .ok t →
    (∀ i, b.toNat = a.toNat + i → i + w'.bytes ≤ w.bytes →
      memRead false b w' t = .ok ((v >>> (8 * i)) &&& to32 (2 ^ (8 * w'.bytes) - 1))) ∧
    (b.toNat + w'.bytes ≤ a.toNat ∨ a.toNat + w.bytes ≤ b.toNat → memRead false b w' t = memRead false b w' s)

/-! ### Branches, jump, lui -/

/-- R251: beq compares the two patterns; equal, the pc is the old pc + offset and nothing is added; otherwise pc + 4; nothing
else changes. -/
def Obligations.BeqBranchesWhenEqual : Prop :=
  SelectsB 0 .beq ∧
  ∀ (rs1 rs2 : RegIdx) (off : BitVec 13) (s : State),
    (s.reg rs1 = s.reg rs2 → exec (.beq rs1 rs2 off) s = .next (moved (u s.pc + sg off) s)) ∧
    (s.reg rs1 ≠ s.reg rs2 → exec (.beq rs1 rs2 off) s = .next (moved (u s.pc + 4) s))

/-- bne is taken when the two patterns differ, and otherwise advances; nothing else changes. Derived: that the "match" of the
source's sentence is, for bne, "not equal" is an inference the spec marks as its own (R252). -/
def Obligations.BneBranchesWhenDifferent : Prop :=
  SelectsB 1 .bne ∧
  ∀ (rs1 rs2 : RegIdx) (off : BitVec 13) (s : State),
    (s.reg rs1 ≠ s.reg rs2 → exec (.bne rs1 rs2 off) s = .next (moved (u s.pc + sg off) s)) ∧
    (s.reg rs1 = s.reg rs2 → exec (.bne rs1 rs2 off) s = .next (moved (u s.pc + 4) s))

/-- R253: jal writes pc + 4 into x[rd], x[0] included, and moves the pc by the offset. -/
def Obligations.JalLinksAndJumps : Prop :=
  (∀ w, opcodeOf w = 0x6F#7 → decode w = .ok (.jal (rdOf w) (rawJ w))) ∧
  ∀ (rd : RegIdx) (off : BitVec 21) (s : State),
    exec (.jal rd off) s = .next { s with regs := s.regs.set rd (to32 (u s.pc + 4)), pc := to32 (u s.pc + sg off) }

/-- R265: lui writes the 20-bit immediate shifted left by 12, which is the word with its low 12 bits cleared. -/
def Obligations.LuiWritesUpperBits : Prop :=
  (∀ w, opcodeOf w = 0x37#7 → decode w = .ok (.lui (rdOf w) (imm20Of w))) ∧
  (∀ (rd : RegIdx) (imm20 : BitVec 20) (s : State),
    exec (.lui rd imm20) s = .next (wrote rd (imm20.toNat * 2 ^ 12) s)) ∧
  (∀ (w : Word) (s : State), opcodeOf w = 0x37#7 →
    exec (.lui (rdOf w) (imm20Of w)) s = .next (put (rdOf w) (w &&& 0xFFFFF000) s))

/-! ### ecall -/

/-- Selector 1 prints x[11] as a signed decimal with nothing before or after it and advances, and nothing else changes (R272).
Derived: that every word of opcode 0x73 is ecall is the spec's decision D12 (R86, R270, log 14, log 20). -/
def Obligations.EcallPrintsInteger : Prop :=
  (∀ w, opcodeOf w = 0x73#7 → decode w = .ok .ecall) ∧
  ∀ s : State, s.reg 10 = 1 →
    exec .ecall s = .next { s with out := s.out ++ decInt (sg (s.reg 11)), pc := to32 (u s.pc + 4) }

/-- Selector 10 prints the termination line, which ends in a newline and whose wording is open, and ends the run with
status EXITED_OK and exit status 0; pc, registers and memory stay. Derived: that the pc stays is the spec's decision
D17. -/
def Obligations.EcallExitsRun : Prop :=
  ∀ s : State, s.reg 10 = 10 →
    exec .ecall s = .next (halted textExit .exitedOk s) ∧ Status.exitedOk.exitStatus = some 0 ∧
    textExit.getLast? = some 0x0A

/-- Any other 32-bit selector is the unsupported-system-call failure: the line of the selector, the status, nothing else
(R274). Derived: that the line is open and ends in a newline is the spec's decision D19 (R6, log 7), that all 32 bits are
compared D25 (log 14), and the selector recorded in the status is the model's choice (log 11). -/
def Obligations.EcallUnsupportedFails : Prop :=
  ∀ (s : State) (sel : Word), s.reg 10 = sel → sel ≠ 1 → sel ≠ 10 →
    exec .ecall s = .next (halted (textBadEcall sel) (.failed (.unsupportedSyscall sel)) s) ∧
    (textBadEcall sel).getLast? = some 0x0A

/-! ### Halting conditions and the status -/

/-- The status codes 0 to 6, the exit status 0 of a successful run and a non-zero one, the same for every cause, of a
failed run. Derived: the numbers are the spec's decision D18, FAIL_STATUS is open (D30). -/
def Obligations.StatusCodes : Prop :=
  Status.running.code = 0 ∧ Status.exitedOk.code = 1 ∧
  (∀ w, (Status.failed (.invalidInstruction w)).code = 2) ∧
  (∀ a k, (Status.failed (.badRead a k)).code = 3) ∧ (∀ a k, (Status.failed (.badWrite a k)).code = 4) ∧
  (∀ sel, (Status.failed (.unsupportedSyscall sel)).code = 5) ∧ (Status.failed .arithUndefined).code = 6 ∧
  Status.exitedOk.exitStatus = some 0 ∧ (∀ c, (Status.failed c).exitStatus = some failStatus) ∧ failStatus ≠ 0

/-- An EXECUTE transaction of an invalid word halts from the word alone, whatever the registers hold: the
invalid-instruction line with the raw word, nothing else changed; a DISASSEMBLE transaction of it prints the same line and
goes on. Derived: the execute line is the spec's decision D20, the order D8. -/
def Obligations.InvalidWordHaltsOrPrints : Prop :=
  ∀ (w : Word) (r : Reject) (s : State), decode w = .error r →
    (s.status = .running → transact (.execute w) s =
      .next (halted (invalidText ++ hex8 w ++ [0x0A]) (.failed (.invalidInstruction w)) s)) ∧
    transact (.disassemble w) s =
      .next { s with out := s.out ++ (invalidText ++ hex8 w ++ [0x0A]) }

/-- An instruction halts exactly on the condition of the table of R280: then its diagnostic and final status and nothing
else; otherwise it commits and leaves the status alone. Derived: that registers and pc stay is the spec's decision D16. -/
def Obligations.HaltsExactlyOnCondition : Prop :=
  ∀ (i : Instr) (s : State),
    (∀ c, conditionOf i s = some c → exec i s = .next (halted c.diagnostic c.finalStatus s)) ∧
    (conditionOf i s = none → ∃ t, exec i s = .next t ∧ t.status = s.status)

/-- A halting transaction has no effect but its diagnostic: whatever step takes the status out of RUNNING changes no
register, not the pc and no byte of memory, and appends the diagnostic of exactly the condition the final status names.
Derived: the spec's decision D16. -/
def Obligations.HaltIsPrecise : Prop :=
  ∀ s t : State, s.status = .running → step s = .next t → t.status ≠ .running →
    t.regs = s.regs ∧ t.pc = s.pc ∧ t.mem = s.mem ∧
    ∃ c : Condition, t.status = c.finalStatus ∧ t.out = s.out ++ c.diagnostic

/-- A halt is final: no step changes the status, a register, the pc or memory again, and an EXECUTE transaction is ignored
altogether (R291). Derived: the sticky status is the spec's decision D16 (R27, log 14); what a step does after a halt rests
on the model's queue, its driver that stands still, and the place of the status test (log 9, log 10, log 12). -/
def Obligations.HaltIsFinal : Prop :=
  ∀ s : State, s.Halted →
    (∀ t, step s = .next t → t.status = s.status ∧ t.regs = s.regs ∧ t.pc = s.pc ∧ t.mem = s.mem) ∧
    (∀ w, transact (.execute w) s = .next s)

/-- Where the pc goes: by the branch or jump rule, pc + 4 for every other instruction that commits, nowhere for one that
halts and for a DISASSEMBLE transaction. Derived: wrap-around and the halting case are the spec's decisions D3, D16, D17. -/
def Obligations.PcAdvancesByRule : Prop :=
  (∀ (i : Instr) (s t : State), s.status = .running → exec i s = .next t →
    (t.status = .running → t.pc = pcAfter i s) ∧ (t.status ≠ .running → t.pc = s.pc)) ∧
  (∀ (w : Word) (s t : State), transact (.disassemble w) s = .next t → t.pc = s.pc)

/-! ### Text -/

/-- The text primitives of R13: emit appends; dec is all digits, spells its number, has no leading zero and a leading `-`
for a negative value only; hex8 is eight lower-case digits that spell the pattern. Derived: the spellings are the spec's
decisions D14, D24. -/
def Obligations.TextPrimitivesSpell : Prop :=
  (∀ (s : State) (text : List Byte), s.emit text = { s with out := s.out ++ text }) ∧
  (∀ n : Nat, (∀ b ∈ decInt n, IsDec b) ∧ readDec (decInt n) = n ∧ decInt 0 = [0x30] ∧
    (n ≠ 0 → (decInt n).head? ≠ some 0x30)) ∧
  (∀ n : Nat, n ≠ 0 → decInt (-(n : Int)) = 0x2D :: decInt n) ∧
  (∀ v : Word, (hex8 v).length = 8 ∧ (∀ b ∈ hex8 v, IsHex b) ∧ readHex (hex8 v) = v.toNat)

/-- A DISASSEMBLE transaction changes nothing but the output stream, for valid and invalid words and whatever the status
(R152); it appends exactly one line (one newline, its last byte) that depends on the word alone (R140). Derived: the closing
newline is the spec's decision D14 (R141), the service after a halt D27 (log 14). -/
def Obligations.DisassembleAppendsOneLine : Prop :=
  ∀ w : Word, ∃ line : List Byte, line.count 0x0A = 1 ∧ line.getLast? = some 0x0A ∧
    ∀ s : State, transact (.disassemble w) s = .next { s with out := s.out ++ line }

/-- The invalid-instruction line is printed exactly for the words that do not execute, and a valid word's line begins
with the mnemonic of the instruction that executes. Derived: R107, an inference the spec marks as its own. -/
def Obligations.RenderAgreesWithDecode : Prop :=
  ∀ w : Word, (render w = invalidText ++ hex8 w ++ [0x0A] ↔ ∃ r, decode w = .error r) ∧
    (∀ i, decode w = .ok i → ∃ rest, render w = ascii (mnemonic i) ++ rest)

/-- The seven layouts of R154, for every operand. Derived: the lui, jal and ecall strings, the decimal spelling and the shift
amount are the spec's decisions D14, D15. -/
def Obligations.RenderLayouts : Prop :=
  ∀ (w : Word) (i : Instr), decode w = .ok i →
    (∀ rd rs1 rs2, i ∈ regRegForms rd rs1 rs2 → render w = ascii (mnemonic i) ++ ascii ['\t', 'x'] ++ decInt rd.val ++
      ascii [',', ' ', 'x'] ++ decInt rs1.val ++ ascii [',', ' ', 'x'] ++ decInt rs2.val ++ [0x0A]) ∧
    (∀ rd rs1 imm, i ∈ immForms rd rs1 imm → render w = ascii (mnemonic i) ++ ascii ['\t', 'x'] ++ decInt rd.val ++
      ascii [',', ' ', 'x'] ++ decInt rs1.val ++ ascii [',', ' '] ++ decInt (sg imm) ++ [0x0A]) ∧
    (∀ rd rs1 shamt, i ∈ shiftForms rd rs1 shamt → render w = ascii (mnemonic i) ++ ascii ['\t', 'x'] ++ decInt rd.val ++
      ascii [',', ' ', 'x'] ++ decInt rs1.val ++ ascii [',', ' '] ++ decInt shamt.toNat ++ [0x0A]) ∧
    (∀ rd rs1 imm, i ∈ loadForms rd rs1 imm → render w = ascii (mnemonic i) ++ ascii ['\t', 'x'] ++ decInt rd.val ++
      ascii [',', ' '] ++ decInt (sg imm) ++ ascii ['(', 'x'] ++ decInt rs1.val ++ ascii [')'] ++ [0x0A]) ∧
    (∀ rs2 rs1 imm n, (i, n) ∈ storeForms rs2 rs1 imm → render w = ascii (mnemonic i) ++ ascii ['\t', 'x'] ++
      decInt rs2.val ++ ascii [',', ' '] ++ decInt (sg imm) ++ ascii ['(', 'x'] ++ decInt rs1.val ++ ascii [')'] ++ [0x0A]) ∧
    (∀ rs1 rs2 off, i = .beq rs1 rs2 off ∨ i = .bne rs1 rs2 off → render w = ascii (mnemonic i) ++ ascii ['\t', 'x'] ++
      decInt rs1.val ++ ascii [',', ' ', 'x'] ++ decInt rs2.val ++ ascii [',', ' '] ++ decInt (sg off) ++ [0x0A]) ∧
    (∀ rd imm20, i = .lui rd imm20 → render w = ascii ['l', 'u', 'i', '\t', 'x'] ++ decInt rd.val ++ ascii [',', ' '] ++
      decInt imm20.toNat ++ [0x0A]) ∧
    (∀ rd off, i = .jal rd off → render w = ascii ['j', 'a', 'l', '\t', 'x'] ++ decInt rd.val ++ ascii [',', ' '] ++
      decInt (sg off) ++ [0x0A]) ∧
    (i = .ecall → render w = ascii ['e', 'c', 'a', 'l', 'l', '\n'])

/-! ### The step -/

/-- A step runs the decoded instruction: with nothing offered by the host and the run going, when the four bytes at pc
decode to a well-formed instruction, the step is exec of it at the same state; the driver adds nothing, the pc is still the
instruction's own address. Derived: the driver and its byte order are the spec's decisions D22, D23. -/
def Obligations.StepRunsDecoded : Prop :=
  ∀ (s : State) (i : Instr), s.commands = [] → s.status = .running → InBounds s.pc 4 s →
    decodeBytes [at_ s s.pc.toNat, at_ s (s.pc.toNat + 1), at_ s (s.pc.toNat + 2), at_ s (s.pc.toNat + 3)] = .ok (i, []) →
    i.wf = true → step s = exec i s

/-- A fetch beyond capacity halts like a load, with BadRead and the pc, and whatever the strap says a misaligned pc is
fetched from as it is. Derived: the spec's decisions D22, D29. -/
def Obligations.FetchAtPc : Prop :=
  ∀ s : State, s.commands = [] → s.status = .running →
    (¬ InBounds s.pc 4 s → step s = .next (readHalt s.pc .bounds s)) ∧
    (InBounds s.pc 4 s → step s = transact (.execute (to32 ((at_ s s.pc.toNat).toNat +
      2 ^ 8 * (at_ s (s.pc.toNat + 1)).toNat + 2 ^ 16 * (at_ s (s.pc.toNat + 2)).toNat +
      2 ^ 24 * (at_ s (s.pc.toNat + 3)).toNat))) s)

/-- A step serves the oldest transaction the host has offered, whichever it is, with the rest left waiting. So a DISASSEMBLE
appends the word's line; an EXECUTE runs the decoded instruction while RUNNING, halts on an invalid word, and after a halt is
dropped with no effect. The queue is the model's own (log 9), the place of the status test too (log 12); one transaction a
step is R15. -/
def Obligations.StepServesOffered : Prop :=
  ∀ (s : State) (rest : List Command),
    (∀ c, s.commands = c :: rest → step s = transact c { s with commands := rest }) ∧
    (∀ w, s.commands = .disassemble w :: rest → step s = .next { s with commands := rest, out := s.out ++ render w }) ∧
    (∀ w i, s.commands = .execute w :: rest → s.status = .running → decode w = .ok i →
      step s = exec i { s with commands := rest }) ∧
    (∀ w r, s.commands = .execute w :: rest → s.status = .running → decode w = .error r →
      step s = .next (halted (invalidText ++ hex8 w ++ [0x0A]) (.failed (.invalidInstruction w)) { s with commands := rest })) ∧
    (∀ w, s.commands = .execute w :: rest → s.status ≠ .running → step s = .next { s with commands := rest })

/-- The word placed by withFetchWord is what the very next step executes, from every state whose memory is in canonical form,
and the placing changes nothing the fetch does not need: the instruction runs in a state with the registers, pc, output and
parameters of before, RUNNING and nothing offered. Where memory has four bytes at pc, those are the word's, little-endian, and
every byte outside them reads as before; where it has not, all of memory is as before. The placing is the model's own
(log 17). -/
def Obligations.PlacedWordRuns : Prop :=
  ∀ (s : State) (w : Word) (i : Instr), s.mem.wf → decode w = .ok i →
    ∃ t : State, step (s.withFetchWord 32 w.toNat) = exec i t ∧ t.regs = s.regs ∧ t.pc = s.pc ∧ t.out = s.out ∧
      t.params = s.params ∧ t.status = .running ∧ t.commands = [] ∧ (s.withFetchWord 32 w.toNat).mem = t.mem ∧
      (InBounds s.pc 4 s → (∀ k, k < 4 → at_ t (s.pc.toNat + k) = w.extractLsb' (8 * k) 8) ∧
        ∀ x, x < s.pc.toNat ∨ s.pc.toNat + 4 ≤ x → at_ t x = at_ s x) ∧
      (¬ InBounds s.pc 4 s → t.mem = s.mem)

/-- A store to the next instruction is seen by the very next fetch: after sw to pc + 4 that commits, the next step executes
the word stored. Derived: R58 is the spec's decision D22. -/
def Obligations.StoreSeenByNextFetch : Prop :=
  ∀ (rs2 rs1 : RegIdx) (imm : BitVec 12) (s : State), s.mem.wf → s.commands = [] → s.status = .running →
    storeAddress rs1 imm s = to32 (u s.pc + 4) → InBounds (storeAddress rs1 imm s) 4 s →
    AlignOk (storeAddress rs1 imm s) 4 s →
    ∃ t, exec (.sw rs2 rs1 imm) s = .next t ∧ step t = transact (.execute (s.reg rs2)) t

/-- Every step answers a next state: no fault, no refusal, from any state at all. R323 requires every transaction to
terminate; that a halt is a next state is log 16. -/
def Obligations.EveryStepAnswers : Prop := ∀ s : State, ∃ t, step s = .next t

/-! ### Frames -/

/-- Frame of the forms that never halt and write one register: add, mul, sub, sll, mulh, slt, xor, srl, sra, or, and, the
eight register-immediate instructions and lui change rd and the pc and nothing else. -/
def Obligations.FrameRegisterForms : Prop :=
  ∀ (rd rs1 rs2 : RegIdx) (imm : BitVec 12) (shamt : BitVec 5) (imm20 : BitVec 20) (i : Instr) (s t : State),
    (i ∈ plainRegRegForms rd rs1 rs2 ∨ i ∈ immForms rd rs1 imm ∨ i ∈ shiftForms rd rs1 shamt ∨ i = .lui rd imm20) →
    exec i s = .next t → KeepsAllBut rd s t ∧ t.status = s.status ∧ t.out = s.out

/-- Frame of the forms that write one register or halt: div, rem, lb, lh, lw. No register but rd and no byte of memory
changes; if the status does not change in a running machine nothing is printed, and if it does rd is as before too. -/
def Obligations.FrameHaltingRegisterForms : Prop :=
  ∀ (rd rs1 rs2 : RegIdx) (imm : BitVec 12) (i : Instr) (s t : State),
    (i = .div rd rs1 rs2 ∨ i = .rem rd rs1 rs2 ∨ i ∈ loadForms rd rs1 imm) → exec i s = .next t →
    KeepsAllBut rd s t ∧ (s.status = .running → t.status = .running → t.out = s.out) ∧
    (s.status = .running → t.status ≠ .running → t.reg rd = s.reg rd)

/-- Frame of the stores sb, sh, sw: no register changes, and every byte outside the width bytes at the store's address reads
as before. -/
def Obligations.FrameStores : Prop :=
  ∀ (rs2 rs1 : RegIdx) (imm : BitVec 12) (i : Instr) (n : Nat) (s t : State), (i, n) ∈ storeForms rs2 rs1 imm →
    exec i s = .next t → KeepsRegs s t ∧
    (∀ x, x < (storeAddress rs1 imm s).toNat ∨ (storeAddress rs1 imm s).toNat + n ≤ x → at_ t x = at_ s x) ∧
    (s.status = .running → t.status ≠ .running → ∀ x, at_ t x = at_ s x) ∧
    (s.status = .running → t.status = .running → t.out = s.out)

/-- Frame of beq, bne, jal and ecall: beq and bne change the pc only, jal the pc and rd, ecall the pc, the output and the
status; no byte of memory. -/
def Obligations.FrameControl : Prop :=
  ∀ (rd rs1 rs2 : RegIdx) (off : BitVec 13) (joff : BitVec 21) (s t : State),
    ((exec (.beq rs1 rs2 off) s = .next t ∨ exec (.bne rs1 rs2 off) s = .next t) →
      KeepsRegs s t ∧ (∀ a, at_ t a = at_ s a) ∧ t.status = s.status ∧ t.out = s.out) ∧
    (exec (.jal rd joff) s = .next t → KeepsAllBut rd s t ∧ t.status = s.status ∧ t.out = s.out) ∧
    (exec .ecall s = .next t → KeepsRegs s t ∧ (∀ a, at_ t a = at_ s a) ∧
      (s.reg 10 = 1 → t.status = s.status) ∧ (s.reg 10 ≠ 1 → t.pc = s.pc))

/-! ### Whole-machine rules -/

/-- An instruction depends on its source registers only: two states that agree on them and on pc, memory, status and
parameters agree afterwards on the pc, the memory, the status, the text appended and, when it commits, the destination
register. Derived: R23, whose ports are the spec's decision D1. -/
def Obligations.OnlySourcesRead : Prop :=
  ∀ (i : Instr) (s s' t t' : State), (∀ r ∈ sourceRegs i, s.reg r = s'.reg r) → s.pc = s'.pc → s.mem = s'.mem →
    s.status = s'.status → s.params = s'.params → exec i s = .next t → exec i s' = .next t' →
    t.pc = t'.pc ∧ t.mem = t'.mem ∧ t.status = t'.status ∧
    (∃ text, t.out = s.out ++ text ∧ t'.out = s'.out ++ text) ∧
    (conditionOf i s = none → ∀ r, destReg i = some r → t.reg r = t'.reg r)

/-- The output stream only grows, by 7-bit bytes: every step appends. Derived: that all text goes to one stream is the spec's
decision D34 (R28). -/
def Obligations.OutputOnlyGrows : Prop :=
  ∀ s t : State, step s = .next t → ∃ text : List Byte, t.out = s.out ++ text ∧ ∀ b ∈ text, b.toNat < 128

/-- Memory in canonical form is determined by what it reads as: equal memories are equal data (log 6). -/
def Obligations.MemoryCanonical : Prop :=
  ∀ m m' : Memory, m.wf → m'.wf → (∀ a, m.read a = m'.read a) → m = m'

/-- The invariant every step keeps: MEMORY_SPACE in its range (R6), memory in canonical form and without a byte at or
beyond capacity (R29, R35), text 7-bit (R28); and no step writes the parameters (R34; log 1). -/
def Obligations.StepKeepsInv : Prop := ∀ s t : State, s.Inv → step s = .next t → t.Inv ∧ t.params = s.params

/-- The invariant holds after reset and after every initialisation whose parameters are in range and whose memory is in
canonical form and below capacity; initialisation loads the host's registers, pc and memory and zeroes nothing, with
status RUNNING and empty output (R311, R312). The zeros of State.reset are the model's choice (log 4, 5, 6). -/
def Obligations.InitialisationLoads : Prop :=
  State.reset.Inv ∧
  ∀ (p : Params) (r : Vector Word 32) (pc : Word) (m : Memory),
    ((State.initialise p r pc m).regs = r ∧ (State.initialise p r pc m).pc = pc ∧
      (State.initialise p r pc m).mem = m ∧ (State.initialise p r pc m).status = .running ∧
      (State.initialise p r pc m).out = []) ∧
    (p.wf → m.wf → (∀ c ∈ m, c.1 < p.memorySpace) → (State.initialise p r pc m).Inv)

/-! ### Control outputs -/

/-- The meanings follow the control outputs of R106. The ALU kinds write the ALU's result on x[rs1] and x[rs2], or x[rs1] and
immI, or take its `undefined`; the shifter kinds the shifter's on x[rs2][4:0] or the shift amount; the branch unit's kinds send
the pc by R25 and write pc + 4 if they write at all; the wiring kind writes what depends on the word alone; and no kind but
that of block control prints unless it halts. Exactly the memory unit's kinds access memory: a kind without an access neither
sees nor changes memory, a reading kind sees the bytes of its width at its address and changes none, a writing kind sees none
and changes none outside the bytes of its width at its address. Derived: rests on the rules of each instruction and, for the
units and their ports, the spec's decision D1. -/
def Obligations.MeaningsFollowControlOutputs : Prop :=
  ∀ i : Instr,
    (execUnit i = .aluArithmeticLogical → ∃ op rd rs1, destReg i = some rd ∧
      ((∃ rs2, sourceRegs i = [rs1, rs2] ∧ ∀ s, exec i s = execAlu op rd (s.reg rs1) (s.reg rs2) s) ∨
       (∃ imm, i ∈ immForms rd rs1 imm ∧ ∀ s, exec i s = execAlu op rd (s.reg rs1) (immI imm) s))) ∧
    (execUnit i = .shifterUnit → ∃ op rd rs1, destReg i = some rd ∧
      ((∃ rs2, sourceRegs i = [rs1, rs2] ∧ ∀ s, exec i s = execShift op rd (s.reg rs1) (shiftAmount (s.reg rs2)) s) ∨
       (∃ shamt, i ∈ shiftForms rd rs1 shamt ∧ ∀ s, exec i s = execShift op rd (s.reg rs1) shamt s))) ∧
    (execUnit i = .branchJumpLogic → ∀ s, ∃ t, exec i s = .next t ∧ t.pc = pcAfter i s ∧
      ∀ rd, destReg i = some rd → t.reg rd = to32 (u s.pc + 4)) ∧
    (execUnit i = .wiring → ∃ rd v, destReg i = some rd ∧ ∀ s, exec i s = .next (put rd v s)) ∧
    (execUnit i ≠ .blockControl → ∀ s t, exec i s = .next t → s.status = .running → t.status = .running →
      t.out = s.out) ∧
    (execUnit i = .memoryInterface ↔ dataAccess i ≠ none) ∧
    ∀ s t : State, exec i s = .next t →
      (dataAccess i = none ↔ dataAddress i s = none) ∧
      (dataAccess i = none → ∀ m, exec i { s with mem := m } = .next { t with mem := m }) ∧
      (∀ w a, dataAccess i = some (.read w) → dataAddress i s = some a →
        ∀ m, (∀ k, k < w.bytes → Memory.read m (a.toNat + k) = at_ s (a.toNat + k)) →
          exec i { s with mem := m } = .next { t with mem := m }) ∧
      (∀ w a, dataAccess i = some (.write w) → dataAddress i s = some a →
        (∀ m, ∃ m', exec i { s with mem := m } = .next { t with mem := m' }) ∧
        ∀ x, x < a.toNat ∨ a.toNat + w.bytes ≤ x → at_ t x = at_ s x)
end

