-- ==== Sys2Proof/Laws/Decode.lean ====
section
/-! SUPPORT. What the field accessors read from an encoded word: one lemma per format and field, from three facts about a
slice of a concatenation. -/

namespace Sys2Proof

@[simp] theorem toFin_regField (r : RegIdx) : (regField r).toFin = r := rfl

/-- A slice inside the low part of a concatenation. -/
theorem extract_low {m n : Nat} (x : BitVec m) (y : BitVec n) (s k : Nat) (h : s + k ≤ n) :
    (x ++ y).extractLsb' s k = y.extractLsb' s k := by
  ext i hi
  simp only [BitVec.getElem_extractLsb', BitVec.getLsbD_append]
  rw [if_pos (by omega)]

/-- A slice inside the high part of a concatenation. -/
theorem extract_high {m n : Nat} (x : BitVec m) (y : BitVec n) (s k : Nat) (h : n ≤ s) :
    (x ++ y).extractLsb' s k = x.extractLsb' (s - n) k := by
  ext i hi
  simp only [BitVec.getElem_extractLsb', BitVec.getLsbD_append]
  rw [if_neg (by omega), show s + i - n = s - n + i by omega]

/-- The slice of everything. -/
theorem extract_all {n : Nat} (x : BitVec n) : x.extractLsb' 0 n = x := by
  ext i hi; simp

/-- Two neighbouring slices joined. -/
theorem extract_join {n : Nat} (x : BitVec n) (s j k : Nat) :
    x.extractLsb' (s + k) j ++ x.extractLsb' s k = x.extractLsb' s (j + k) := by
  ext i hi
  simp only [BitVec.getElem_append, BitVec.getElem_extractLsb']
  split
  · rfl
  · rw [show s + k + (i - k) = s + i by omega]

/-- The low bit of an even offset, as a slice. -/
theorem extract_low_bit {n : Nat} (off : BitVec n) (h : evenOffset off = true) : off.extractLsb' 0 1 = 0#1 := by
  ext i hi
  obtain rfl : i = 0 := by omega
  simpa [evenOffset] using h

section R
variable (f7 op : BitVec 7) (f3 : BitVec 3) (rd rs1 rs2 : RegIdx)

@[simp] theorem opcodeOf_encR : opcodeOf (encR f7 rs2 rs1 f3 rd op) = op := by
  simp (disch := decide) only [opcodeOf, encR, extract_low, extract_all]
@[simp] theorem rdOf_encR : rdOf (encR f7 rs2 rs1 f3 rd op) = rd := by
  simp (disch := decide) only [rdOf, encR, extract_low, extract_high, extract_all, Nat.reduceSub, toFin_regField]
@[simp] theorem funct3Of_encR : funct3Of (encR f7 rs2 rs1 f3 rd op) = f3 := by
  simp (disch := decide) only [funct3Of, encR, extract_low, extract_high, extract_all, Nat.reduceSub]
@[simp] theorem rs1Of_encR : rs1Of (encR f7 rs2 rs1 f3 rd op) = rs1 := by
  simp (disch := decide) only [rs1Of, encR, extract_low, extract_high, extract_all, Nat.reduceSub, toFin_regField]
@[simp] theorem rs2Of_encR : rs2Of (encR f7 rs2 rs1 f3 rd op) = rs2 := by
  simp (disch := decide) only [rs2Of, encR, extract_low, extract_high, extract_all, Nat.reduceSub, toFin_regField]
@[simp] theorem funct7Of_encR : funct7Of (encR f7 rs2 rs1 f3 rd op) = f7 := by
  simp (disch := decide) only [funct7Of, encR, extract_high, extract_all, Nat.reduceSub]
end R

section I
variable (imm : BitVec 12) (op f7 : BitVec 7) (shamt : BitVec 5) (f3 : BitVec 3) (rd rs1 : RegIdx)

@[simp] theorem opcodeOf_encI : opcodeOf (encI imm rs1 f3 rd op) = op := by
  simp (disch := decide) only [opcodeOf, encI, extract_low, extract_all]
@[simp] theorem rdOf_encI : rdOf (encI imm rs1 f3 rd op) = rd := by
  simp (disch := decide) only [rdOf, encI, extract_low, extract_high, extract_all, Nat.reduceSub, toFin_regField]
@[simp] theorem funct3Of_encI : funct3Of (encI imm rs1 f3 rd op) = f3 := by
  simp (disch := decide) only [funct3Of, encI, extract_low, extract_high, extract_all, Nat.reduceSub]
@[simp] theorem rs1Of_encI : rs1Of (encI imm rs1 f3 rd op) = rs1 := by
  simp (disch := decide) only [rs1Of, encI, extract_low, extract_high, extract_all, Nat.reduceSub, toFin_regField]
@[simp] theorem rawI_encI : rawI (encI imm rs1 f3 rd op) = imm := by
  simp (disch := decide) only [rawI, encI, extract_high, extract_all, Nat.reduceSub]
@[simp] theorem shamtOf_encI : shamtOf (encI (f7 ++ shamt) rs1 f3 rd op) = shamt := by
  simp (disch := decide) only [shamtOf, encI, extract_low, extract_high, extract_all, Nat.reduceSub]
@[simp] theorem funct7Of_encI : funct7Of (encI (f7 ++ shamt) rs1 f3 rd op) = f7 := by
  simp (disch := decide) only [funct7Of, encI, extract_high, extract_all, Nat.reduceSub]
end I

section S
variable (imm : BitVec 12) (op : BitVec 7) (f3 : BitVec 3) (rs1 rs2 : RegIdx)

@[simp] theorem opcodeOf_encS : opcodeOf (encS imm rs2 rs1 f3 op) = op := by
  simp (disch := decide) only [opcodeOf, encS, extract_low, extract_all]
@[simp] theorem funct3Of_encS : funct3Of (encS imm rs2 rs1 f3 op) = f3 := by
  simp (disch := decide) only [funct3Of, encS, extract_low, extract_high, extract_all, Nat.reduceSub]
@[simp] theorem rs1Of_encS : rs1Of (encS imm rs2 rs1 f3 op) = rs1 := by
  simp (disch := decide) only [rs1Of, encS, extract_low, extract_high, extract_all, Nat.reduceSub, toFin_regField]
@[simp] theorem rs2Of_encS : rs2Of (encS imm rs2 rs1 f3 op) = rs2 := by
  simp (disch := decide) only [rs2Of, encS, extract_low, extract_high, extract_all, Nat.reduceSub, toFin_regField]
@[simp] theorem rawS_encS : rawS (encS imm rs2 rs1 f3 op) = imm := by
  simp (disch := decide) only [rawS, encS, extract_low, extract_high, extract_all, Nat.reduceSub]
  exact (extract_join imm 0 7 5).trans (extract_all imm)
end S

section B
variable (off : BitVec 13) (op : BitVec 7) (f3 : BitVec 3) (rs1 rs2 : RegIdx)

@[simp] theorem opcodeOf_encB : opcodeOf (encB off rs2 rs1 f3 op) = op := by
  simp (disch := decide) only [opcodeOf, encB, extract_low, extract_all]
@[simp] theorem funct3Of_encB : funct3Of (encB off rs2 rs1 f3 op) = f3 := by
  simp (disch := decide) only [funct3Of, encB, extract_low, extract_high, extract_all, Nat.reduceSub]
@[simp] theorem rs1Of_encB : rs1Of (encB off rs2 rs1 f3 op) = rs1 := by
  simp (disch := decide) only [rs1Of, encB, extract_low, extract_high, extract_all, Nat.reduceSub, toFin_regField]
@[simp] theorem rs2Of_encB : rs2Of (encB off rs2 rs1 f3 op) = rs2 := by
  simp (disch := decide) only [rs2Of, encB, extract_low, extract_high, extract_all, Nat.reduceSub, toFin_regField]
theorem rawB_encB (h : evenOffset off = true) : rawB (encB off rs2 rs1 f3 op) = off := by
  simp (disch := decide) only [rawB, encB, extract_low, extract_high, extract_all, Nat.reduceSub]
  rw [← extract_low_bit off h, extract_join off 11 1 1, extract_join off 5 2 6, extract_join off 1 8 4,
    extract_join off 0 12 1]
  exact extract_all off
end B

section U
variable (imm20 : BitVec 20) (op : BitVec 7) (rd : RegIdx)

@[simp] theorem opcodeOf_encU : opcodeOf (encU imm20 rd op) = op := by
  simp (disch := decide) only [opcodeOf, encU, extract_low, extract_all]
@[simp] theorem rdOf_encU : rdOf (encU imm20 rd op) = rd := by
  simp (disch := decide) only [rdOf, encU, extract_low, extract_high, extract_all, Nat.reduceSub, toFin_regField]
@[simp] theorem imm20Of_encU : imm20Of (encU imm20 rd op) = imm20 := by
  simp (disch := decide) only [imm20Of, encU, extract_high, extract_all, Nat.reduceSub]
end U

section J
variable (off : BitVec 21) (op : BitVec 7) (rd : RegIdx)

@[simp] theorem opcodeOf_encJ : opcodeOf (encJ off rd op) = op := by
  simp (disch := decide) only [opcodeOf, encJ, extract_low, extract_all]
@[simp] theorem rdOf_encJ : rdOf (encJ off rd op) = rd := by
  simp (disch := decide) only [rdOf, encJ, extract_low, extract_high, extract_all, Nat.reduceSub, toFin_regField]
theorem rawJ_encJ (h : evenOffset off = true) : rawJ (encJ off rd op) = off := by
  simp (disch := decide) only [rawJ, encJ, extract_low, extract_high, extract_all, Nat.reduceSub]
  rw [← extract_low_bit off h, extract_join off 12 1 8, extract_join off 11 9 1, extract_join off 1 10 10,
    extract_join off 0 20 1]
  exact extract_all off
end J

/-- The bytes of a word are as many as asked for. -/
@[simp] theorem length_leBytes (n : Nat) (v : Word) : (leBytes n v).length = n := by simp [leBytes]

/-- Byte i of a word in memory order (R41). -/
@[simp] theorem getElem_leBytes (n : Nat) (v : Word) (i : Nat) (h : i < (leBytes n v).length) :
    (leBytes n v)[i] = v.extractLsb' (8 * i) 8 := by simp [leBytes]

end Sys2Proof
end

