-- ==== Sys2Proof/Laws/Memory.lean ====
section
/-! SUPPORT. The laws of the memory array: read after write, and that every operation keeps the canonical form. -/

namespace Sys2Proof.Machine.Memory

/-- Below every listed address, a byte reads as unlisted. -/
theorem read_of_lt_all (m : Memory) (a : Nat) (h : ∀ c ∈ m, a < c.1) : m.read a = Config.unlistedByte := by
  induction m with
  | nil => rfl
  | cons c m ih =>
    obtain ⟨k, v⟩ := c
    have hk : a < k := h (k, v) (by simp)
    simp only [read, if_neg (Nat.ne_of_gt hk)]
    exact ih fun c hc => h c (List.mem_cons_of_mem _ hc)

/-- Read after write at the same address. -/
theorem read_write_self (m : Memory) (a : Nat) (b : Byte) (hm : m.wf) : (m.write a b).read a = b := by
  induction m with
  | nil => by_cases hb : b = Config.unlistedByte <;> simp [write, read, hb]
  | cons c m ih =>
    obtain ⟨k, v⟩ := c
    obtain ⟨hp, hn⟩ := hm
    rw [List.pairwise_cons] at hp
    have hrest : a ≤ k → ∀ c ∈ m, a < c.1 := fun hak c hc => Nat.lt_of_le_of_lt hak (hp.1 c hc)
    by_cases hlt : a < k
    · by_cases hb : b = Config.unlistedByte
      · simp [write, hlt, hb, read, Nat.ne_of_gt hlt, read_of_lt_all m a (hrest hlt.le)]
      · simp [write, hlt, hb, read]
    · by_cases hak : a = k
      · by_cases hb : b = Config.unlistedByte
        · simp [write, hak, hb, read_of_lt_all m k (hak ▸ hrest hak.le)]
        · simp [write, hak, hb, read]
      · simp only [write, hlt, hak, if_false, read, if_neg (Ne.symm hak)]
        exact ih ⟨hp.2, fun c hc => hn c (List.mem_cons_of_mem _ hc)⟩

/-- A write leaves every other address alone. -/
theorem read_write_of_ne (m : Memory) (a : Nat) (b : Byte) (a' : Nat) (h : a' ≠ a) :
    (m.write a b).read a' = m.read a' := by
  induction m with
  | nil => by_cases hb : b = Config.unlistedByte <;> simp [write, read, hb, h.symm]
  | cons c m ih =>
    obtain ⟨k, v⟩ := c
    by_cases hlt : a < k
    · by_cases hb : b = Config.unlistedByte <;> simp [write, hlt, hb, read, h.symm]
    · by_cases hak : a = k
      · subst hak
        by_cases hb : b = Config.unlistedByte <;> simp [write, hb, read, h.symm]
      · simp [write, hlt, hak, read, ih]

/-- Every entry after a write is the written byte, not the unlisted one, or an entry from before. -/
theorem mem_write (m : Memory) (a : Nat) (b : Byte) (c : Host.Cell) (h : c ∈ m.write a b) :
    (c = (a, b) ∧ b ≠ Config.unlistedByte) ∨ c ∈ m := by
  induction m with
  | nil =>
    by_cases hb : b = Config.unlistedByte
    · simp [write, hb] at h
    · simp only [write, hb, if_false, List.mem_singleton] at h; exact .inl ⟨h, hb⟩
  | cons d m ih =>
    obtain ⟨k, v⟩ := d
    by_cases hb : b = Config.unlistedByte
    · by_cases hlt : a < k
      · simp only [write, hlt, hb, if_true] at h; exact .inr h
      · by_cases hak : a = k
        · simp only [write, hak, hb, if_true, if_false, Nat.lt_irrefl] at h
          exact .inr (List.mem_cons_of_mem _ h)
        · simp only [write, hlt, hak, if_false, List.mem_cons] at h
          rcases h with h | h
          · exact .inr (by simp [h])
          · exact (ih h).imp_right (List.mem_cons_of_mem _)
    · by_cases hlt : a < k
      · simp only [write, hlt, hb, if_true, if_false, List.mem_cons] at h
        rcases h with h | h
        · exact .inl ⟨h, hb⟩
        · exact .inr (List.mem_cons.mpr h)
      · by_cases hak : a = k
        · simp only [write, hak, hb, if_true, if_false, Nat.lt_irrefl, List.mem_cons] at h
          rcases h with h | h
          · exact .inl ⟨by simp [h, hak], hb⟩
          · exact .inr (List.mem_cons_of_mem _ h)
        · simp only [write, hlt, hak, if_false, List.mem_cons] at h
          rcases h with h | h
          · exact .inr (by simp [h])
          · exact (ih h).imp_right (List.mem_cons_of_mem _)

/-- A write keeps the addresses strictly rising. -/
theorem write_pairwise (m : Memory) (a : Nat) (b : Byte) (hp : m.Pairwise (fun c d => c.1 < d.1)) :
    (m.write a b).Pairwise (fun c d => c.1 < d.1) := by
  induction m with
  | nil => by_cases hb : b = Config.unlistedByte <;> simp [write, hb]
  | cons c m ih =>
    obtain ⟨k, v⟩ := c
    have hp' := List.pairwise_cons.mp hp
    by_cases hlt : a < k
    · by_cases hb : b = Config.unlistedByte
      · simpa [write, hlt, hb] using hp
      · simp only [write, hlt, hb, if_true, if_false]
        refine List.pairwise_cons.mpr ⟨fun d hd => ?_, hp⟩
        rcases List.mem_cons.mp hd with hd | hd
        · simpa [hd] using hlt
        · exact Nat.lt_trans hlt (hp'.1 d hd)
    · by_cases hak : a = k
      · subst hak
        by_cases hb : b = Config.unlistedByte
        · simpa [write, hb] using hp'.2
        · simpa [write, hb] using hp
      · simp only [write, hlt, hak, if_false]
        refine List.pairwise_cons.mpr ⟨fun d hd => ?_, ih hp'.2⟩
        rcases mem_write m a b d hd with ⟨hd, -⟩ | hd
        · simp only [hd]; omega
        · exact hp'.1 d hd

/-- A write keeps the canonical form. -/
theorem write_wf (m : Memory) (a : Nat) (b : Byte) (hm : m.wf) : (m.write a b).wf := by
  refine ⟨write_pairwise m a b hm.1, fun c hc => ?_⟩
  rcases mem_write m a b c hc with ⟨rfl, hb⟩ | hc
  · exact hb
  · exact hm.2 c hc

/-- The empty memory is in canonical form. -/
theorem nil_wf : Memory.wf [] := by simp [wf]

/-- Writing bytes keeps the canonical form. -/
theorem writeList_wf (bs : List Byte) (m : Memory) (a : Nat) (hm : m.wf) : (m.writeList a bs).wf := by
  induction bs generalizing m a with
  | nil => exact hm
  | cons b bs ih => exact ih _ _ (write_wf m a b hm)

/-- Writing bytes leaves every address outside them alone. -/
theorem read_writeList_of_outside (bs : List Byte) (m : Memory) (a a' : Nat) (h : a' < a ∨ a + bs.length ≤ a') :
    (m.writeList a bs).read a' = m.read a' := by
  induction bs generalizing m a with
  | nil => rfl
  | cons b bs ih =>
    simp only [List.length_cons] at h
    rw [writeList, ih _ _ (by omega), read_write_of_ne _ _ _ _ (by omega)]

/-- Reading the bytes written gives them back. -/
theorem readList_writeList (bs : List Byte) (m : Memory) (a : Nat) (hm : m.wf) :
    (m.writeList a bs).readList a bs.length = bs := by
  induction bs generalizing m a with
  | nil => rfl
  | cons b bs ih =>
    simp only [writeList, List.length_cons, readList]
    rw [read_writeList_of_outside _ _ _ _ (by omega), read_write_self m a b hm, ih _ _ (write_wf m a b hm)]

/-- Byte i of the bytes written, read alone. -/
theorem read_writeList (bs : List Byte) (m : Memory) (a i : Nat) (hm : m.wf) (hi : i < bs.length) :
    (m.writeList a bs).read (a + i) = bs[i] := by
  induction bs generalizing m a i with
  | nil => simp at hi
  | cons b bs ih =>
    cases i with
    | zero =>
      simp only [writeList, Nat.add_zero, List.getElem_cons_zero]
      rw [read_writeList_of_outside _ _ _ _ (by omega), read_write_self m a b hm]
    | succ i =>
      simp only [writeList, List.getElem_cons_succ]
      have := ih (m.write a b) (a + 1) i (write_wf m a b hm) (by simpa using hi)
      rwa [show a + (i + 1) = a + 1 + i by omega]

/-- Writing bytes lists no address but theirs and those listed before. -/
theorem mem_writeList (bs : List Byte) (m : Memory) (a : Nat) (c : Host.Cell) (h : c ∈ m.writeList a bs) :
    (a ≤ c.1 ∧ c.1 < a + bs.length) ∨ c ∈ m := by
  induction bs generalizing m a with
  | nil => exact .inr h
  | cons b bs ih =>
    simp only [List.length_cons]
    rcases ih _ _ h with h | h
    · exact .inl (by omega)
    · rcases mem_write m a b c h with ⟨rfl, -⟩ | h
      · exact .inl (by simp)
      · exact .inr h

/-- A read depends on its own bytes only. -/
theorem readList_congr (m m' : Memory) (a n : Nat) (h : ∀ k, k < n → m.read (a + k) = m'.read (a + k)) :
    m.readList a n = m'.readList a n := by
  induction n generalizing a with
  | zero => rfl
  | succ n ih =>
    rw [readList, readList, show m.read a = m'.read a from h 0 (by omega), ih (a + 1) fun k hk => by simpa [Nat.add_assoc, Nat.add_comm 1] using h (k + 1) (by omega)]

@[simp] theorem length_readList (m : Memory) (a n : Nat) : (m.readList a n).length = n := by
  induction n generalizing a with
  | zero => rfl
  | succ n ih => simp [readList, ih]

end Sys2Proof.Machine.Memory
end

