-- ==== Sys2Proof/Laws/Access.lean ====
section
/-! SUPPORT. What the memory interface can answer: one lemma for the checks, one for a read, one for a write. -/

namespace Sys2Proof.Machine

/-- An access is accepted exactly when it is in bounds and, if checked, aligned (R42, R43). -/
theorem accessReject_eq_none (p : Params) (check : Bool) (a : Word) (w : Width) :
    accessReject p check a w = none ↔
      a.toNat + w.bytes ≤ p.memorySpace ∧ (check = true → a.toNat % w.bytes = 0) := by
  unfold accessReject
  split
  · simp; omega
  · split <;> simp_all

/-- Bounds is reported whenever the access is out of bounds (R46, R285). -/
theorem accessReject_eq_bounds (p : Params) (check : Bool) (a : Word) (w : Width) :
    accessReject p check a w = some .bounds ↔ p.memorySpace < a.toNat + w.bytes := by
  unfold accessReject
  split
  · simp_all
  · split <;> simp_all

/-- What a read answers: BadRead with the address of the access, or the little-endian bytes (R44). -/
theorem memRead_cases (check : Bool) (a : Word) (w : Width) (s : State) :
    (∃ kind, accessReject s.params check a w = some kind ∧ memRead check a w s = .error (.fail (.badRead a kind))) ∨
    (accessReject s.params check a w = none ∧
      memRead check a w s = .ok (BitVec.ofNat 32 (leValue (s.mem.readList a.toNat w.bytes)))) := by
  unfold memRead
  cases h : accessReject s.params check a w with
  | some kind => exact .inl ⟨kind, rfl, rfl⟩
  | none => exact .inr ⟨rfl, rfl⟩

/-- What a write answers: BadWrite with the address of the access, or the memory with the bytes put (R45). -/
theorem memWrite_cases (check : Bool) (a : Word) (w : Width) (v : Word) (s : State) :
    (∃ kind, accessReject s.params check a w = some kind ∧
      memWrite check a w v s = .error (.fail (.badWrite a kind))) ∨
    (accessReject s.params check a w = none ∧
      memWrite check a w v s = .ok { s with mem := s.mem.writeList a.toNat (leBytes w.bytes v) }) := by
  unfold memWrite
  cases h : accessReject s.params check a w with
  | some kind => exact .inl ⟨kind, rfl, rfl⟩
  | none => exact .inr ⟨rfl, rfl⟩

end Sys2Proof.Machine
end

