-- ==== Sys2Proof/Laws/State.lean ====
section
/-! SUPPORT. One lemma per field per update of State, so that no later proof unfolds a record update. -/

namespace Sys2Proof.Machine

variable (s : State) (r q : RegIdx) (v t : Word) (text : List Byte) (c : Condition)

/-! ### setReg -/

@[simp] theorem State.setReg_pc : (s.setReg r v).pc = s.pc := rfl
@[simp] theorem State.setReg_mem : (s.setReg r v).mem = s.mem := rfl
@[simp] theorem State.setReg_status : (s.setReg r v).status = s.status := rfl
@[simp] theorem State.setReg_out : (s.setReg r v).out = s.out := rfl
@[simp] theorem State.setReg_commands : (s.setReg r v).commands = s.commands := rfl
@[simp] theorem State.setReg_params : (s.setReg r v).params = s.params := rfl

/-- Read after write of one register (R10, R21). -/
@[simp] theorem State.reg_setReg_self : (s.setReg r v).reg r = v := by simp [State.reg, State.setReg]

/-- A register write leaves every other register alone. -/
theorem State.reg_setReg_of_ne (h : q ≠ r) : (s.setReg r v).reg q = s.reg q := by
  have hv : r.val ≠ q.val := fun e => h (Fin.ext e.symm)
  simp [State.reg, State.setReg, hv]

/-- Read after write, both cases. -/
theorem State.reg_setReg : (s.setReg r v).reg q = if q = r then v else s.reg q := by
  by_cases h : q = r
  · subst h; simp
  · simp [h, State.reg_setReg_of_ne s r q v h]

/-! ### setPc and advance -/

@[simp] theorem State.setPc_regs : (s.setPc t).regs = s.regs := rfl
@[simp] theorem State.setPc_reg : (s.setPc t).reg q = s.reg q := rfl
@[simp] theorem State.setPc_pc : (s.setPc t).pc = t := rfl
@[simp] theorem State.setPc_mem : (s.setPc t).mem = s.mem := rfl
@[simp] theorem State.setPc_status : (s.setPc t).status = s.status := rfl
@[simp] theorem State.setPc_out : (s.setPc t).out = s.out := rfl
@[simp] theorem State.setPc_commands : (s.setPc t).commands = s.commands := rfl
@[simp] theorem State.setPc_params : (s.setPc t).params = s.params := rfl

@[simp] theorem State.advance_regs : s.advance.regs = s.regs := rfl
@[simp] theorem State.advance_reg : s.advance.reg q = s.reg q := rfl
@[simp] theorem State.advance_pc : s.advance.pc = s.pc + 4#32 := rfl
@[simp] theorem State.advance_mem : s.advance.mem = s.mem := rfl
@[simp] theorem State.advance_status : s.advance.status = s.status := rfl
@[simp] theorem State.advance_out : s.advance.out = s.out := rfl
@[simp] theorem State.advance_commands : s.advance.commands = s.commands := rfl
@[simp] theorem State.advance_params : s.advance.params = s.params := rfl

/-! ### emit and raise -/

@[simp] theorem State.emit_regs : (s.emit text).regs = s.regs := rfl
@[simp] theorem State.emit_reg : (s.emit text).reg q = s.reg q := rfl
@[simp] theorem State.emit_pc : (s.emit text).pc = s.pc := rfl
@[simp] theorem State.emit_mem : (s.emit text).mem = s.mem := rfl
@[simp] theorem State.emit_status : (s.emit text).status = s.status := rfl
@[simp] theorem State.emit_out : (s.emit text).out = s.out ++ text := rfl
@[simp] theorem State.emit_commands : (s.emit text).commands = s.commands := rfl
@[simp] theorem State.emit_params : (s.emit text).params = s.params := rfl

@[simp] theorem raise_regs : (raise c s).regs = s.regs := rfl
@[simp] theorem raise_reg : (raise c s).reg q = s.reg q := rfl
@[simp] theorem raise_pc : (raise c s).pc = s.pc := rfl
@[simp] theorem raise_mem : (raise c s).mem = s.mem := rfl
@[simp] theorem raise_status : (raise c s).status = c.finalStatus := rfl
@[simp] theorem raise_out : (raise c s).out = s.out ++ c.diagnostic := rfl
@[simp] theorem raise_commands : (raise c s).commands = s.commands := rfl
@[simp] theorem raise_params : (raise c s).params = s.params := rfl

/-- A condition always takes the status out of RUNNING (R289). -/
theorem finalStatus_ne_running : c.finalStatus ≠ .running := by cases c <;> simp [Condition.finalStatus]

end Sys2Proof.Machine
end

