-- ==== Sys2Proof/Laws/Exec.lean ====
section
/-! SUPPORT. What each shared operation can answer, said once: provers cite these instead of unfolding the operation. -/

namespace Sys2Proof.Machine

/-! ### The units -/

@[simp] theorem commit_eq (rd : RegIdx) (v : Word) (s : State) : commit rd v s = .next ((s.setReg rd v).advance) := rfl
@[simp] theorem halt_eq (c : Condition) (s : State) : halt c s = .next (raise c s) := rfl

/-- The `undefined` output is raised exactly for div and rem on the operands of R197. -/
theorem alu_eq_none (op : AluOp) (a b : Word) :
    alu op a b = none ↔ (op = .div ∨ op = .rem) ∧ divUndefined a b = true := by
  cases op <;> simp [alu]

/-- The ALU instruction: a result committed, or ArithUndefined taken. -/
theorem execAlu_cases (op : AluOp) (rd : RegIdx) (a b : Word) (s : State) :
    (∃ v, alu op a b = some v ∧ execAlu op rd a b s = .next ((s.setReg rd v).advance)) ∨
    (alu op a b = none ∧ execAlu op rd a b s = .next (raise (.fail .arithUndefined) s)) := by
  unfold execAlu
  cases h : alu op a b with
  | some v => exact .inl ⟨v, rfl, rfl⟩
  | none => exact .inr ⟨rfl, rfl⟩

/-- The shift instruction always commits. -/
theorem execShift_eq (op : ShiftOp) (rd : RegIdx) (a : Word) (n : BitVec 5) (s : State) :
    execShift op rd a n s = .next ((s.setReg rd (shifter op a n)).advance) := rfl

/-- The undefined divisions as R197 writes them. -/
theorem divUndefined_iff (a b : Word) :
    divUndefined a b = true ↔ b.toInt = 0 ∨ (a.toInt = -2 ^ 31 ∧ b.toInt = -1) := by
  have hz : b.toInt = 0 ↔ b = 0#32 := ⟨fun h => BitVec.eq_of_toInt_eq (h.trans (by decide)), fun h => by subst h; decide⟩
  have hm : b.toInt = -1 ↔ b = 0xFFFFFFFF#32 :=
    ⟨fun h => BitVec.eq_of_toInt_eq (h.trans (by decide)), fun h => by subst h; decide⟩
  have hi : a.toInt = -2 ^ 31 ↔ a = 0x80000000#32 :=
    ⟨fun h => BitVec.eq_of_toInt_eq (h.trans (by decide)), fun h => by subst h; decide⟩
  simp only [hz, hm, hi, divUndefined, Bool.or_eq_true, Bool.and_eq_true, beq_iff_eq]

/-! ### Loads and stores -/

/-- The load: BadRead taken, or the extended bytes committed. -/
theorem loadReg_cases (w : Width) (ext : Word → Word) (rd : RegIdx) (a : Word) (s : State) :
    (∃ kind, accessReject s.params s.params.alignCheckEn a w = some kind ∧
      loadReg w ext rd a s = .next (raise (.fail (.badRead a kind)) s)) ∨
    (accessReject s.params s.params.alignCheckEn a w = none ∧
      loadReg w ext rd a s =
        .next ((s.setReg rd (ext (BitVec.ofNat 32 (leValue (s.mem.readList a.toNat w.bytes))))).advance)) := by
  rcases memRead_cases s.params.alignCheckEn a w s with ⟨kind, hk, hr⟩ | ⟨hn, hr⟩
  · exact .inl ⟨kind, hk, by simp [loadReg, hr]⟩
  · exact .inr ⟨hn, by simp [loadReg, hr]⟩

/-- The store: BadWrite taken, or the low bytes of v put and the pc advanced. -/
theorem storeReg_cases (w : Width) (a v : Word) (s : State) :
    (∃ kind, accessReject s.params s.params.alignCheckEn a w = some kind ∧
      storeReg w a v s = .next (raise (.fail (.badWrite a kind)) s)) ∨
    (accessReject s.params s.params.alignCheckEn a w = none ∧
      storeReg w a v s =
        .next { s with mem := s.mem.writeList a.toNat (leBytes w.bytes v), pc := s.pc + 4#32 }) := by
  rcases memWrite_cases s.params.alignCheckEn a w v s with ⟨kind, hk, hr⟩ | ⟨hn, hr⟩
  · exact .inl ⟨kind, hk, by simp [storeReg, hr]⟩
  · exact .inr ⟨hn, by simp [storeReg, hr, State.advance, State.setPc]⟩

/-! ### ecall -/

/-- ecall: print and advance, exit, or the unsupported-system-call failure (R271). -/
theorem execEcall_cases (s : State) :
    (s.reg selectorReg = 1#32 ∧ execEcall s = .next (printInteger s)) ∨
    (s.reg selectorReg = 10#32 ∧ execEcall s = .next (raise .exit s)) ∨
    (s.reg selectorReg ≠ 1#32 ∧ s.reg selectorReg ≠ 10#32 ∧
      execEcall s = .next (raise (.fail (.unsupportedSyscall (s.reg selectorReg))) s)) := by
  unfold execEcall
  split
  · exact .inl ⟨‹_›, rfl⟩
  · split
    · exact .inr (.inl ⟨‹_›, rfl⟩)
    · exact .inr (.inr ⟨‹_›, ‹_›, rfl⟩)

/-! ### Transactions and the driver -/

/-- An EXECUTE transaction: ignored, an invalid instruction, or the decoded one executed. -/
theorem executeWord_cases (w : Word) (s : State) :
    (s.status ≠ .running ∧ executeWord w s = .next s) ∨
    (s.status = .running ∧ (∃ r, decode w = .error r) ∧
      executeWord w s = .next (raise (.fail (.invalidInstruction w)) s)) ∨
    (∃ i, s.status = .running ∧ decode w = .ok i ∧ executeWord w s = exec i s) := by
  unfold executeWord
  cases hs : s.status with
  | running =>
    cases hd : decode w with
    | error r => exact .inr (.inl ⟨rfl, ⟨r, rfl⟩, rfl⟩)
    | ok i => exact .inr (.inr ⟨i, rfl, rfl, rfl⟩)
  | exitedOk => exact .inl ⟨by simp, rfl⟩
  | failed c => exact .inl ⟨by simp, rfl⟩

/-- A turn of the driver: nothing after the end, a rejected fetch, or the fetched word executed. -/
theorem driverTurn_cases (s : State) :
    (s.status ≠ .running ∧ driverTurn s = .next s) ∨
    (s.status = .running ∧ ∃ kind, driverTurn s = .next (raise (.fail (.badRead s.pc kind)) s)) ∨
    (∃ w, s.status = .running ∧ fetchWord s = .ok w ∧ driverTurn s = executeWord w s) := by
  unfold driverTurn
  cases hs : s.status with
  | running =>
    rcases memRead_cases false s.pc .word s with ⟨kind, -, hr⟩ | ⟨-, hr⟩
    · exact .inr (.inl ⟨rfl, kind, by simp [fetchWord, hr]⟩)
    · exact .inr (.inr ⟨_, rfl, hr, by simp [fetchWord, hr]⟩)
  | exitedOk => exact .inl ⟨by simp, rfl⟩
  | failed c => exact .inl ⟨by simp, rfl⟩

/-- A turn of the block: one offered transaction, or a turn of the driver. -/
theorem turn_cases (s : State) :
    (∃ w rest, s.commands = .disassemble w :: rest ∧
      turn s = .next (({ s with commands := rest } : State).emit (render w))) ∨
    (∃ w rest, s.commands = .execute w :: rest ∧ turn s = executeWord w { s with commands := rest }) ∨
    (s.commands = [] ∧ turn s = driverTurn s) := by
  unfold turn
  cases hc : s.commands with
  | nil => exact .inr (.inr ⟨rfl, rfl⟩)
  | cons c rest =>
    cases c with
    | disassemble w => exact .inl ⟨w, rest, rfl, rfl⟩
    | execute w => exact .inr (.inl ⟨w, rest, rfl, rfl⟩)

end Sys2Proof.Machine
end

