-- ==== Sys2Proof/Laws/PerInstr.lean ====
section
/-! SUPPORT. Facts about the instruction as syntax, one lemma per constructor. Family Opcode: the encoder gives every
instruction an opcode that selects the instruction's own family (R80). -/

namespace Sys2Proof.Laws.Opcode

open Sys2Proof.Machine (family)

/-- The opcode of the encoded word selects the family of the instruction. -/
def Statement (i : Instr) : Prop := familyOf (opcodeOf (encode i)) = some (family i)

theorem add (rd rs1 rs2 : RegIdx) : Statement (.add rd rs1 rs2) :=
  congrArg familyOf (opcodeOf_encR ..)
theorem mul (rd rs1 rs2 : RegIdx) : Statement (.mul rd rs1 rs2) :=
  congrArg familyOf (opcodeOf_encR ..)
theorem sub (rd rs1 rs2 : RegIdx) : Statement (.sub rd rs1 rs2) :=
  congrArg familyOf (opcodeOf_encR ..)
theorem sll (rd rs1 rs2 : RegIdx) : Statement (.sll rd rs1 rs2) :=
  congrArg familyOf (opcodeOf_encR ..)
theorem mulh (rd rs1 rs2 : RegIdx) : Statement (.mulh rd rs1 rs2) :=
  congrArg familyOf (opcodeOf_encR ..)
theorem slt (rd rs1 rs2 : RegIdx) : Statement (.slt rd rs1 rs2) :=
  congrArg familyOf (opcodeOf_encR ..)
theorem xor (rd rs1 rs2 : RegIdx) : Statement (.xor rd rs1 rs2) :=
  congrArg familyOf (opcodeOf_encR ..)
theorem div (rd rs1 rs2 : RegIdx) : Statement (.div rd rs1 rs2) :=
  congrArg familyOf (opcodeOf_encR ..)
theorem srl (rd rs1 rs2 : RegIdx) : Statement (.srl rd rs1 rs2) :=
  congrArg familyOf (opcodeOf_encR ..)
theorem sra (rd rs1 rs2 : RegIdx) : Statement (.sra rd rs1 rs2) :=
  congrArg familyOf (opcodeOf_encR ..)
theorem or (rd rs1 rs2 : RegIdx) : Statement (.or rd rs1 rs2) :=
  congrArg familyOf (opcodeOf_encR ..)
theorem rem (rd rs1 rs2 : RegIdx) : Statement (.rem rd rs1 rs2) :=
  congrArg familyOf (opcodeOf_encR ..)
theorem and (rd rs1 rs2 : RegIdx) : Statement (.and rd rs1 rs2) :=
  congrArg familyOf (opcodeOf_encR ..)
theorem addi (rd rs1 : RegIdx) (imm : BitVec 12) : Statement (.addi rd rs1 imm) :=
  congrArg familyOf (opcodeOf_encI ..)
theorem slli (rd rs1 : RegIdx) (shamt : BitVec 5) : Statement (.slli rd rs1 shamt) :=
  congrArg familyOf (opcodeOf_encI ..)
theorem slti (rd rs1 : RegIdx) (imm : BitVec 12) : Statement (.slti rd rs1 imm) :=
  congrArg familyOf (opcodeOf_encI ..)
theorem xori (rd rs1 : RegIdx) (imm : BitVec 12) : Statement (.xori rd rs1 imm) :=
  congrArg familyOf (opcodeOf_encI ..)
theorem srli (rd rs1 : RegIdx) (shamt : BitVec 5) : Statement (.srli rd rs1 shamt) :=
  congrArg familyOf (opcodeOf_encI ..)
theorem srai (rd rs1 : RegIdx) (shamt : BitVec 5) : Statement (.srai rd rs1 shamt) :=
  congrArg familyOf (opcodeOf_encI ..)
theorem ori (rd rs1 : RegIdx) (imm : BitVec 12) : Statement (.ori rd rs1 imm) :=
  congrArg familyOf (opcodeOf_encI ..)
theorem andi (rd rs1 : RegIdx) (imm : BitVec 12) : Statement (.andi rd rs1 imm) :=
  congrArg familyOf (opcodeOf_encI ..)
theorem lb (rd rs1 : RegIdx) (imm : BitVec 12) : Statement (.lb rd rs1 imm) :=
  congrArg familyOf (opcodeOf_encI ..)
theorem lh (rd rs1 : RegIdx) (imm : BitVec 12) : Statement (.lh rd rs1 imm) :=
  congrArg familyOf (opcodeOf_encI ..)
theorem lw (rd rs1 : RegIdx) (imm : BitVec 12) : Statement (.lw rd rs1 imm) :=
  congrArg familyOf (opcodeOf_encI ..)
theorem sb (rs2 rs1 : RegIdx) (imm : BitVec 12) : Statement (.sb rs2 rs1 imm) :=
  congrArg familyOf (opcodeOf_encS ..)
theorem sh (rs2 rs1 : RegIdx) (imm : BitVec 12) : Statement (.sh rs2 rs1 imm) :=
  congrArg familyOf (opcodeOf_encS ..)
theorem sw (rs2 rs1 : RegIdx) (imm : BitVec 12) : Statement (.sw rs2 rs1 imm) :=
  congrArg familyOf (opcodeOf_encS ..)
theorem beq (rs1 rs2 : RegIdx) (off : BitVec 13) : Statement (.beq rs1 rs2 off) :=
  congrArg familyOf (opcodeOf_encB ..)
theorem bne (rs1 rs2 : RegIdx) (off : BitVec 13) : Statement (.bne rs1 rs2 off) :=
  congrArg familyOf (opcodeOf_encB ..)
theorem lui (rd : RegIdx) (imm20 : BitVec 20) : Statement (.lui rd imm20) :=
  congrArg familyOf (opcodeOf_encU ..)
theorem jal (rd : RegIdx) (off : BitVec 21) : Statement (.jal rd off) :=
  congrArg familyOf (opcodeOf_encJ ..)
theorem ecall : Statement .ecall := rfl

end Sys2Proof.Laws.Opcode
end

