-- ==== Sys2Proof/Laws/Text.lean ====
section
/-! SUPPORT. Every text the machine emits is 7-bit ASCII (spec/10_state.md R28). -/

namespace Sys2Proof.Machine

/-- All bytes of a text are 7-bit. -/
def Ascii (text : List Byte) : Prop := ∀ b ∈ text, b.toNat < 128

theorem Ascii.append {a b : List Byte} (ha : Ascii a) (hb : Ascii b) : Ascii (a ++ b) := by
  intro c hc
  rcases List.mem_append.mp hc with h | h
  · exact ha c h
  · exact hb c h

theorem ascii_nil : Ascii [] := by intro b hb; simp at hb
theorem ascii_newline : Ascii newline := by simp [Ascii, newline]
theorem ascii_tab : Ascii tab := by simp [Ascii, tab]
theorem ascii_sep : Ascii sep := by simp [Ascii, sep, ascii]

theorem digit_toNat (n : Nat) : (digit n).toNat = 0x30 + n % 10 := by
  simp only [digit, BitVec.toNat_ofNat]; omega

theorem ascii_decDigits (fuel n : Nat) : Ascii (decDigits fuel n) := by
  have hd : ∀ n, Ascii [digit n] := fun n b hb => by
    rw [List.mem_singleton.mp hb, digit_toNat]; omega
  induction fuel generalizing n with
  | zero => intro b hb; simp [decDigits] at hb
  | succ fuel ih =>
    unfold decDigits
    split
    · exact hd n
    · exact (ih _).append (hd n)

theorem ascii_decNat (n : Nat) : Ascii (decNat n) := ascii_decDigits _ _

theorem ascii_decInt (z : Int) : Ascii (decInt z) := by
  unfold decInt
  split
  · exact Ascii.append (by simp [Ascii, ascii]) (ascii_decNat _)
  · exact ascii_decNat _

theorem ascii_hex8 (v : Word) : Ascii (hex8 v) := by
  intro b hb
  obtain ⟨i, -, rfl⟩ := List.mem_map.mp hb
  generalize v.extractLsb' (4 * i) 4 = d
  revert d; decide

theorem ascii_openText (body : List (BitVec 7)) : Ascii (openText body) := by
  refine Ascii.append (fun b hb => ?_) ascii_newline
  obtain ⟨c, -, rfl⟩ := List.mem_map.mp hb
  have := c.isLt
  simp only [BitVec.toNat_setWidth]
  omega

theorem ascii_invalidPrefix : Ascii invalidPrefix := by simp [Ascii, ascii, invalidPrefix]
theorem ascii_badReadPrefix : Ascii badReadPrefix := by simp [Ascii, ascii, badReadPrefix]
theorem ascii_badWritePrefix : Ascii badWritePrefix := by simp [Ascii, ascii, badWritePrefix]

theorem ascii_invalidLine (w : Word) : Ascii (invalidLine w) :=
  (Ascii.append ascii_invalidPrefix (ascii_hex8 w)).append ascii_newline

/-- Every diagnostic is 7-bit ASCII. -/
theorem ascii_diagnostic (c : Condition) : Ascii c.diagnostic := by
  cases c with
  | exit => exact ascii_openText _
  | fail cause =>
    cases cause with
    | invalidInstruction w => exact ascii_invalidLine w
    | badRead a _ => exact (Ascii.append ascii_badReadPrefix (ascii_hex8 a)).append ascii_newline
    | badWrite a _ => exact (Ascii.append ascii_badWritePrefix (ascii_hex8 a)).append ascii_newline
    | unsupportedSyscall sel => exact ascii_openText _
    | arithUndefined => exact ascii_openText _

theorem ascii_regText (r : RegIdx) : Ascii (regText r) := Ascii.append (by simp [Ascii, ascii]) (ascii_decNat _)

theorem ascii_mnemonic (i : Instr) : Ascii (ascii (mnemonic i)) := by
  cases i <;> simp [mnemonic, Ascii, ascii]

theorem ascii_layoutRRR (rd rs1 rs2 : RegIdx) : Ascii (layoutRRR rd rs1 rs2) :=
  ((((ascii_tab.append (ascii_regText rd)).append ascii_sep).append (ascii_regText rs1)).append ascii_sep).append
    (ascii_regText rs2)

theorem ascii_layoutRRV (r1 r2 : RegIdx) (z : Int) : Ascii (layoutRRV r1 r2 z) :=
  ((((ascii_tab.append (ascii_regText r1)).append ascii_sep).append (ascii_regText r2)).append ascii_sep).append
    (ascii_decInt z)

theorem ascii_layoutRV (rd : RegIdx) (z : Int) : Ascii (layoutRV rd z) :=
  ((ascii_tab.append (ascii_regText rd)).append ascii_sep).append (ascii_decInt z)

theorem ascii_layoutMem (r : RegIdx) (z : Int) (rs1 : RegIdx) : Ascii (layoutMem r z rs1) :=
  (((((ascii_tab.append (ascii_regText r)).append ascii_sep).append (ascii_decInt z)).append
    (by simp [Ascii, ascii])).append (ascii_regText rs1)).append (by simp [Ascii, ascii])

theorem ascii_operandText (i : Instr) : Ascii (operandText i) := by
  cases i <;>
    simp only [operandText, ascii_layoutRRR, ascii_layoutRRV, ascii_layoutMem, ascii_layoutRV, ascii_nil]

/-- Every rendered line is 7-bit ASCII. -/
theorem ascii_render (w : Word) : Ascii (render w) := by
  unfold render
  split
  · exact ascii_invalidLine w
  · exact ((ascii_mnemonic _).append (ascii_operandText _)).append ascii_newline

end Sys2Proof.Machine
end

