-- ==== Sys2Proof/Laws/Word.lean ====
section
/-! SUPPORT. to32 and the two readings of a word, the extended immediates as signed numbers, and that a word is the
reassembly of its fields. -/

namespace Sys2Proof

/-! ### to32 (R8) -/

/-- to32 undoes the unsigned reading. -/
@[simp] theorem to32_toNat (v : Word) : to32 (v.toNat : Int) = v := by simp [to32]

/-- to32 undoes the signed reading. -/
@[simp] theorem to32_toInt (v : Word) : to32 v.toInt = v := by simp [to32]

theorem to32_add (y z : Int) : to32 (y + z) = to32 y + to32 z := BitVec.ofInt_add ..
theorem to32_mul (y z : Int) : to32 (y * z) = to32 y * to32 z := BitVec.ofInt_mul ..
theorem to32_neg (y : Int) : to32 (-y) = -to32 y := BitVec.ofInt_neg ..

theorem to32_sub (y z : Int) : to32 (y - z) = to32 y - to32 z := by
  rw [Int.sub_eq_add_neg, to32_add, to32_neg, BitVec.sub_eq_add_neg]

/-- The generic advance as the rules write it. -/
theorem to32_pc_add_four (v : Word) : to32 ((v.toNat : Int) + 4) = v + 4#32 := by
  rw [to32_add, to32_toNat]; rfl

/-- to32 of a narrow value's signed reading is its sign extension. -/
theorem to32_toInt_narrow {n : Nat} (hn : n ≤ 32) (v : BitVec n) : to32 v.toInt = v.signExtend 32 := by
  have hp : (2 : Int) ^ (n - 1) ≤ 2 ^ 31 := by exact_mod_cast Nat.pow_le_pow_right (by omega) (by omega)
  have hl := BitVec.le_toInt v
  have hu := BitVec.toInt_lt (x := v)
  apply BitVec.eq_of_toInt_eq
  rw [BitVec.toInt_signExtend_of_le hn, to32, BitVec.toInt_ofInt]
  exact Int.bmod_eq_of_le (by norm_num; omega) (by norm_num; omega)

/-! ### Words from their fields (R71, R92) -/

@[simp] theorem regField_toFin (v : BitVec 5) : regField v.toFin = v := rfl

variable (w : Word)

theorem encR_fields : encR (funct7Of w) (rs2Of w) (rs1Of w) (funct3Of w) (rdOf w) (opcodeOf w) = w := by
  unfold encR funct7Of rs2Of rs1Of funct3Of rdOf opcodeOf
  simp only [regField_toFin]
  rw [extract_join w 20 7 5, extract_join w 15 12 5, extract_join w 12 17 3, extract_join w 7 20 5,
    extract_join w 0 25 7]
  exact extract_all w

theorem encI_fields : encI (rawI w) (rs1Of w) (funct3Of w) (rdOf w) (opcodeOf w) = w := by
  unfold encI rawI rs1Of funct3Of rdOf opcodeOf
  simp only [regField_toFin]
  rw [extract_join w 15 12 5, extract_join w 12 17 3, extract_join w 7 20 5, extract_join w 0 25 7]
  exact extract_all w

theorem encS_fields : encS (rawS w) (rs2Of w) (rs1Of w) (funct3Of w) (opcodeOf w) = w := by
  unfold encS rawS rs2Of rs1Of funct3Of opcodeOf
  simp (disch := decide) only [regField_toFin, extract_low, extract_high, extract_all, Nat.reduceSub]
  rw [extract_join w 20 7 5, extract_join w 15 12 5, extract_join w 12 17 3, extract_join w 7 20 5,
    extract_join w 0 25 7]
  exact extract_all w

theorem encB_fields : encB (rawB w) (rs2Of w) (rs1Of w) (funct3Of w) (opcodeOf w) = w := by
  unfold encB rawB rs2Of rs1Of funct3Of opcodeOf
  simp (disch := decide) only [regField_toFin, extract_low, extract_high, extract_all, Nat.reduceSub]
  rw [extract_join w 25 1 6, extract_join w 20 7 5, extract_join w 15 12 5, extract_join w 12 17 3,
    extract_join w 8 20 4, extract_join w 7 24 1, extract_join w 0 25 7]
  exact extract_all w

theorem encU_fields : encU (imm20Of w) (rdOf w) (opcodeOf w) = w := by
  unfold encU imm20Of rdOf opcodeOf
  simp only [regField_toFin]
  rw [extract_join w 7 20 5, extract_join w 0 25 7]
  exact extract_all w

theorem encJ_fields : encJ (rawJ w) (rdOf w) (opcodeOf w) = w := by
  unfold encJ rawJ rdOf opcodeOf
  simp (disch := decide) only [regField_toFin, extract_low, extract_high, extract_all, Nat.reduceSub]
  rw [extract_join w 21 1 10, extract_join w 20 11 1, extract_join w 12 12 8, extract_join w 7 20 5,
    extract_join w 0 25 7]
  exact extract_all w

/-- The I immediate is word[31:25] above the shift amount (R73). -/
theorem funct7_shamt : funct7Of w ++ shamtOf w = rawI w := extract_join w 20 7 5

theorem evenOffset_rawB : evenOffset (rawB w) = true := by
  unfold evenOffset rawB
  rw [BitVec.getLsbD_append]
  simp
theorem evenOffset_rawJ : evenOffset (rawJ w) = true := by
  unfold evenOffset rawJ
  rw [BitVec.getLsbD_append]
  simp

/-- The four little-endian bytes of a word spell the word (R41). -/
theorem leValue_leBytes_four : leValue (leBytes 4 w) = w.toNat := by
  have := w.isLt
  simp only [leBytes, List.range_succ, List.range_zero, List.nil_append, List.map_cons, List.map_nil,
    List.cons_append, leValue, BitVec.extractLsb'_toNat, Nat.shiftRight_eq_div_pow]
  omega

namespace Machine

/-! ### Extended immediates -/

/-- The sign_extender on a field of its own width is plain sign extension. -/
theorem sext_setWidth {n : Nat} (hn : n ≤ 32) (v : BitVec n) : sext n (v.setWidth 32) = v.signExtend 32 := by
  rw [sext, BitVec.setWidth_setWidth_of_le _ hn, BitVec.setWidth_eq]

theorem immI_eq (imm : BitVec 12) : immI imm = to32 imm.toInt := by
  rw [to32_toInt_narrow (by omega)]; exact sext_setWidth (by omega) imm

theorem immS_eq (imm : BitVec 12) : immS imm = to32 imm.toInt := immI_eq imm

theorem immB_eq (off : BitVec 13) : immB off = to32 off.toInt := by
  rw [to32_toInt_narrow (by omega)]; exact sext_setWidth (by omega) off

theorem immJ_eq (off : BitVec 21) : immJ off = to32 off.toInt := by
  rw [to32_toInt_narrow (by omega)]; exact sext_setWidth (by omega) off

/-- The signed reading of an extended field is that of the field. -/
theorem toInt_sext_setWidth {n : Nat} (hn : n ≤ 32) (v : BitVec n) : (sext n (v.setWidth 32)).toInt = v.toInt := by
  rw [sext_setWidth hn, BitVec.toInt_signExtend_of_le hn]

end Machine

end Sys2Proof
end

