-- ==== Sys2Proof/Tests/Slice0.lean ====
section
/-! SUPPORT. Tests and witnesses. Every word and every expected value of a test is a row of spec/95_test_vectors.md (the
section is named at each group). A witness shows a state and operands that meet the hypotheses of a statement. -/

namespace Sys2Proof.Tests

open Sys2Proof.Machine Sys2Proof.Claim

/-! ### Helpers -/

/-- The machine of the vectors: pc 0x100, capacity 0x1000, x1 and x2 given, every other register 9. -/
def mk (x1 x2 : Word) (mem : Memory := []) (align : Bool := false) : State :=
  State.initialise { memorySpace := 0x1000, alignCheckEn := align }
    (((Vector.replicate 32 9#32).set 1 x1).set 2 x2) 0x100 mem

/-- The machine with a selector and an argument for ecall. -/
def mkCall (x10 x11 : Word) : State :=
  State.initialise Config.resetParams (((Vector.replicate 32 9#32).set 10 x10).set 11 x11) 0x100 []

/-- The memory before each load of section 2.7. -/
def loadMem : Memory :=
  [(0x100, 0xEF), (0x101, 0xBE), (0x102, 0xAD), (0x103, 0xDE), (0x104, 0x80), (0x105, 0x7F), (0x106, 0xFF)]

/-- One look at the next state; none if the outcome is another. -/
def look {α : Type} (r : Result) (f : State → α) : Option α :=
  match r with
  | .next t => some (f t)
  | .fault _ => none
  | .refused _ => none

/-- One register and the pc after executing a word. -/
def regPc (w : Word) (s : State) (r : RegIdx) : Option (Word × Word) := look (executeWord w s) fun t => (t.reg r, t.pc)

/-- Memory and the pc after executing a word. -/
def memPc (w : Word) (s : State) : Option (Memory × Word) := look (executeWord w s) fun t => (t.mem, t.pc)

/-- The status and the text after executing a word. -/
def statusText (w : Word) (s : State) : Option (Status × List Byte) :=
  look (executeWord w s) fun t => (t.status, t.out)

/-- Expected text, written as characters. -/
def line (cs : List Char) : List Byte := ascii cs

/-! ### WellFormed: each check refuses an ill-formed term (R75, R77: the low bit of an offset is always 0) -/

theorem test_wf_refuses_odd_beq : (Instr.beq 1 2 17).wf = false := by decide
theorem test_wf_refuses_odd_bne : (Instr.bne 1 2 0x1FFF).wf = false := by decide
theorem test_wf_refuses_odd_jal : (Instr.jal 1 1).wf = false := by decide
theorem test_wf_takes_even_offsets :
    (Instr.beq 1 2 16).wf = true ∧ (Instr.bne 1 2 0x1FF8).wf = true ∧ (Instr.jal 1 0x1FFFFC).wf = true := by decide

/-! ### Decoding: a word of every constructor, bit by bit (sections 2.1 to 2.3) -/

theorem test_decode_add : decode 0x003100B3#32 = .ok (.add 1 2 3) := by decide
theorem test_decode_mul : decode 0x022081B3#32 = .ok (.mul 3 1 2) := by decide
theorem test_decode_sub : decode 0x40628433#32 = .ok (.sub 8 5 6) := by decide
theorem test_decode_sll : decode 0x002091B3#32 = .ok (.sll 3 1 2) := by decide
theorem test_decode_mulh : decode 0x022091B3#32 = .ok (.mulh 3 1 2) := by decide
theorem test_decode_slt : decode 0x0020A1B3#32 = .ok (.slt 3 1 2) := by decide
theorem test_decode_xor : decode 0x0020C1B3#32 = .ok (.xor 3 1 2) := by decide
theorem test_decode_div : decode 0x0220C1B3#32 = .ok (.div 3 1 2) := by decide
theorem test_decode_srl : decode 0x0020D1B3#32 = .ok (.srl 3 1 2) := by decide
theorem test_decode_sra : decode 0x4020D1B3#32 = .ok (.sra 3 1 2) := by decide
theorem test_decode_or : decode 0x0020E1B3#32 = .ok (.or 3 1 2) := by decide
theorem test_decode_rem : decode 0x0220E1B3#32 = .ok (.rem 3 1 2) := by decide
theorem test_decode_and : decode 0x0020F1B3#32 = .ok (.and 3 1 2) := by decide
theorem test_decode_addi : decode 0x80008193#32 = .ok (.addi 3 1 0x800) := by decide
theorem test_decode_slli : decode 0x7E409193#32 = .ok (.slli 3 1 4) := by decide
theorem test_decode_slti : decode 0xFFF0A193#32 = .ok (.slti 3 1 0xFFF) := by decide
theorem test_decode_xori : decode 0x00F0C193#32 = .ok (.xori 3 1 15) := by decide
theorem test_decode_srli : decode 0x01F0D193#32 = .ok (.srli 3 1 31) := by decide
theorem test_decode_srai : decode 0x40335293#32 = .ok (.srai 5 6 3) := by decide
theorem test_decode_ori : decode 0x8000E193#32 = .ok (.ori 3 1 0x800) := by decide
theorem test_decode_andi : decode 0xF000F193#32 = .ok (.andi 3 1 0xF00) := by decide
theorem test_decode_lb : decode 0xFFC10283#32 = .ok (.lb 5 2 0xFFC) := by decide
theorem test_decode_lh : decode 0x7FF09F83#32 = .ok (.lh 31 1 0x7FF) := by decide
theorem test_decode_lw : decode 0x0000A003#32 = .ok (.lw 0 1 0) := by decide
theorem test_decode_sb : decode 0x002081A3#32 = .ok (.sb 2 1 3) := by decide
theorem test_decode_sh : decode 0xFE209F23#32 = .ok (.sh 2 1 0xFFE) := by decide
theorem test_decode_sw : decode 0x7E20AFA3#32 = .ok (.sw 2 1 0x7FF) := by decide
theorem test_decode_beq : decode 0x7E208F63#32 = .ok (.beq 1 2 2046) := by decide
theorem test_decode_bne : decode 0xFE209CE3#32 = .ok (.bne 1 2 0x1FF8) := by decide
theorem test_decode_lui : decode 0xDEADC2B7#32 = .ok (.lui 5 0xDEADC) := by decide
theorem test_decode_jal : decode 0xDEADBEEF#32 = .ok (.jal 29 0x1DB5EA) := by decide
theorem test_decode_ecall : decode 0x30200073#32 = .ok .ecall := by decide

/-- Field by field: funct7, rs2, rs1, funct3, rd, opcode of sub x8, x5, x6 and the groups of the S, B and J formats. -/
theorem test_decode_bit_groups :
    decode (0b0100000#7 ++ 0b00110#5 ++ 0b00101#5 ++ 0b000#3 ++ 0b01000#5 ++ 0b0110011#7) = .ok (.sub 8 5 6) ∧
    decode (0b0000001#7 ++ 0b00010#5 ++ 0b00001#5 ++ 0b010#3 ++ 0b00000#5 ++ 0b0100011#7) = .ok (.sw 2 1 32) ∧
    decode (0b0#1 ++ 0b000000#6 ++ 0b00010#5 ++ 0b00001#5 ++ 0b000#3 ++ 0b0000#4 ++ 0b1#1 ++ 0b1100011#7) =
      .ok (.beq 1 2 2048) ∧
    decode (0b0#1 ++ 0b0000000000#10 ++ 0b1#1 ++ 0b00000000#8 ++ 0b00001#5 ++ 0b1101111#7) = .ok (.jal 1 2048) := by
  decide

/-- INVALID words: a reserved pair, funct3 3 and 4 of the load family, blt, an unknown opcode, all ones. -/
theorem test_decode_invalid :
    decode 0x4020F1B3#32 = .error .unknownFunction ∧ decode 0x00003033#32 = .error .unknownFunction ∧
    decode 0x0240D193#32 = .error .unknownFunction ∧ decode 0x00004003#32 = .error .unknownFunction ∧
    decode 0x0020B023#32 = .error .unknownFunction ∧ decode 0x00004063#32 = .error .unknownFunction ∧
    decode 0x00000017#32 = .error .unknownOpcode ∧ decode 0xFFFFFFFF#32 = .error .unknownOpcode ∧
    decode 0x00000000#32 = .error .unknownOpcode := by decide

/-- The encoder gives the words back (section 2.2). -/
theorem test_encode :
    encode (.addi 1 2 0xEEF) = 0xEEF10093#32 ∧ encode (.sw 2 1 0xFE0) = 0xFE20A023#32 ∧
    encode (.beq 1 2 0x1800) = 0x802080E3#32 ∧ encode (.jal 1 0xFFFFE) = 0x7FFFF0EF#32 ∧
    encode (.lui 5 0x80000) = 0x800002B7#32 ∧ encode .ecall = 0x00000073#32 := by decide

/-- The host's two entry points on one word: it decodes, and the first step after reset executes it. -/
theorem test_first_step_after_reset :
    decodeTableWord 32 0x00500013 = some (.addi 0 0 5) ∧
    look (step (State.reset.withFetchWord 32 0x00500013)) (fun t => (t.reg 0, t.pc)) = some (5, 4) := by decide

/-! ### sign_extender and immediates (section 2.2) -/

theorem test_sign_extender :
    sext 8 0x12345680 = 0xFFFFFF80#32 ∧ sext 16 0x7FFF = 0x00007FFF#32 ∧ sext 12 0x1800 = 0xFFFFF800#32 ∧
    sext 13 0x1000 = 0xFFFFF000#32 ∧ sext 21 0x100000 = 0xFFF00000#32 := by decide

theorem test_immediates :
    immS (rawS 0xFE20AE23) = 0xFFFFFFFC#32 ∧ immB (rawB 0x002080E3) = 0x00000800#32 ∧
    immJ (rawJ 0x000FF0EF) = 0x000FF000#32 ∧ immJ (rawJ 0xFF5FF0EF) = 0xFFFFFFF4#32 := by decide

/-! ### Register-register instructions (sections 2.4, 2.5) -/

theorem test_add_wraps : regPc 0x002081B3 (mk 0xFFFFFFFF 0x00000001) 3 = some (0x00000000, 0x104) := by decide
theorem test_sub_borrows : regPc 0x402081B3 (mk 0x80000000 0x00000001) 3 = some (0x7FFFFFFF, 0x104) := by decide
theorem test_sll_amount_low_five : regPc 0x002091B3 (mk 0x00000001 0xFFFFFFFF) 3 = some (0x80000000, 0x104) := by decide
theorem test_srl_logical : regPc 0x0020D1B3 (mk 0xFFFFFFF0 0x00000004) 3 = some (0x0FFFFFFF, 0x104) := by decide
theorem test_sra_amount_low_five : regPc 0x4020D1B3 (mk 0x80000000 0x00000021) 3 = some (0xC0000000, 0x104) := by decide
theorem test_slt_signed : regPc 0x0020A1B3 (mk 0xFFFFFFFF 0x00000001) 3 = some (0x00000001, 0x104) := by decide
theorem test_xor : regPc 0x0020C1B3 (mk 0xFF00FF00 0x0FF00FF0) 3 = some (0xF0F0F0F0, 0x104) := by decide
theorem test_or : regPc 0x0020E1B3 (mk 0xFF00FF00 0x0FF00FF0) 3 = some (0xFFF0FFF0, 0x104) := by decide
theorem test_and : regPc 0x0020F1B3 (mk 0xFF00FF00 0x0FF00FF0) 3 = some (0x0F000F00, 0x104) := by decide
theorem test_mul_low : regPc 0x022081B3 (mk 0x12345678 0x9ABCDEF0) 3 = some (0x242D2080, 0x104) := by decide
theorem test_mulh_signed : regPc 0x022091B3 (mk 0x12345678 0x9ABCDEF0) 3 = some (0xF8CC93D6, 0x104) := by decide
theorem test_div_truncates : regPc 0x0220C1B3 (mk 0xFFFFFFF9 0x00000002) 3 = some (0xFFFFFFFD, 0x104) := by decide
theorem test_rem_sign_of_dividend : regPc 0x0220E1B3 (mk 0xFFFFFFF9 0x00000002) 3 = some (0xFFFFFFFF, 0x104) := by decide
theorem test_div_by_zero_halts :
    look (executeWord 0x0220C1B3 (mk 5 0)) (fun t => (t.status, t.reg 3, t.pc)) = some (.failed .arithUndefined, 9, 0x100) := by
  decide
theorem test_rem_overflow_halts :
    look (executeWord 0x0220E1B3 (mk 0x80000000 0xFFFFFFFF)) (fun t => (t.status, t.reg 3, t.pc)) =
      some (.failed .arithUndefined, 9, 0x100) := by decide

/-- A source that is also the destination, and register 0 as both (section 2.4, aliasing). -/
theorem test_add_aliased : regPc 0x001080B3 (mk 0x40000001 0) 1 = some (0x80000002, 0x104) := by decide

/-! ### Register-immediate instructions (section 2.6) -/

theorem test_addi_negative : regPc 0x80008193 (mk 0x00000005 0) 3 = some (0xFFFFF805, 0x104) := by decide
theorem test_slti_signed : regPc 0x8000A193 (mk 0x80000000 0) 3 = some (0x00000001, 0x104) := by decide
theorem test_xori_extends : regPc 0xFFF0C193 (mk 0x12345678 0) 3 = some (0xEDCBA987, 0x104) := by decide
theorem test_ori_extends : regPc 0x8000E193 (mk 0x12345678 0) 3 = some (0xFFFFFE78, 0x104) := by decide
theorem test_andi_extends : regPc 0xF000F193 (mk 0xFFFFFFFF 0) 3 = some (0xFFFFFF00, 0x104) := by decide
theorem test_slli_ignores_upper_bits : regPc 0x7E409193 (mk 0xFFFFFFFF 0) 3 = some (0xFFFFFFF0, 0x104) := by decide
theorem test_srli_logical : regPc 0x01F0D193 (mk 0x80000000 0) 3 = some (0x00000001, 0x104) := by decide
theorem test_srai_floors : regPc 0x4040D193 (mk 0xFFFFFFF0 0) 3 = some (0xFFFFFFFF, 0x104) := by decide

/-! ### Loads and stores (section 2.7) -/

theorem test_lb_extends : regPc 0x00408183 (mk 0x100 0 loadMem) 3 = some (0xFFFFFF80, 0x104) := by decide
theorem test_lb_last_byte : regPc 0x00008183 (mk 0xFFF 0 loadMem) 3 = some (0x00000000, 0x104) := by decide
theorem test_lh_misaligned : regPc 0x00109183 (mk 0x100 0 loadMem) 3 = some (0xFFFFADBE, 0x104) := by decide
theorem test_lw_negative_offset : regPc 0xFFC0A183 (mk 0x104 0 loadMem true) 3 = some (0xDEADBEEF, 0x104) := by decide

/-- A misaligned lh under the strap: the line of section 2.7, rd untouched. -/
theorem test_lh_misaligned_halts :
    statusText 0x00109183 (mk 0x100 0 loadMem true) = some (.failed (.badRead 0x101 .alignment),
      line ['B', 'a', 'd', ' ', 'R', 'e', 'a', 'd', '.', ' ', 'A', 'd', 'd', 'r', 'e', 's', 's', ':', ' ', '0', 'x',
        '0', '0', '0', '0', '0', '1', '0', '1', '\n']) := by decide

/-- Bounds before alignment (section 2.11). -/
theorem test_lw_bounds_before_alignment :
    look (executeWord 0x0000A183 (mk 0x1001 0 [] true)) (fun t => t.status) = some (.failed (.badRead 0x1001 .bounds)) := by
  decide

theorem test_sb_last_byte : memPc 0x00208023 (mk 0xFFF 0x1FF) = some ([(0xFFF, 0xFF)], 0x104) := by decide
theorem test_sh_little_endian :
    memPc 0xFE209F23 (mk 0x200 0x0000ABCD) = some ([(0x1FE, 0xCD), (0x1FF, 0xAB)], 0x104) := by decide
theorem test_sw_little_endian :
    memPc 0x0020A023 (mk 0x200 0xDEADBEEF [] true) =
      some ([(0x200, 0xEF), (0x201, 0xBE), (0x202, 0xAD), (0x203, 0xDE)], 0x104) := by decide

/-- A store that straddles the end writes no byte (section 2.7). -/
theorem test_sw_straddles_end :
    look (executeWord 0x0020A023 (mk 0xFFD 1)) (fun t => (t.status, t.mem, t.pc)) =
      some (.failed (.badWrite 0xFFD .bounds), [], 0x100) := by decide
theorem test_sw_bad_write_line :
    look (executeWord 0x0020A023 (mk 0x1000 1)) (fun t => t.out) =
      some (line ['B', 'a', 'd', ' ', 'W', 'r', 'i', 't', 'e', '.', ' ', 'A', 'd', 'd', 'r', 'e', 's', 's', ':', ' ',
        '0', 'x', '0', '0', '0', '0', '1', '0', '0', '0', '\n']) := by decide

/-! ### Branches, jump, lui (sections 2.8, 2.9) -/

theorem test_beq_taken_wraps : regPc 0x80208063 (mk 7 7) 3 = some (9, 0xFFFFF100) := by decide
theorem test_beq_not_taken : regPc 0x00208863 (mk 7 8) 3 = some (9, 0x104) := by decide
theorem test_bne_taken : regPc 0xFE209CE3 (mk 1 0) 3 = some (9, 0xF8) := by decide
theorem test_bne_not_taken : regPc 0xFE209CE3 (mk 5 5) 3 = some (9, 0x104) := by decide
theorem test_jal_back : regPc 0xFFDFF0EF (mk 0 0) 1 = some (0x104, 0xFC) := by decide
theorem test_jal_writes_x0 : regPc 0x0080006F (mk 0 0) 0 = some (0x104, 0x108) := by decide
theorem test_lui : regPc 0xDEADC2B7 (mk 0 0) 5 = some (0xDEADC000, 0x104) := by decide

/-! ### ecall and halts (sections 2.10, 2.11) -/

theorem test_ecall_prints_minimum :
    statusText 0x00000073 (mkCall 1 0x80000000) =
      some (.running, line ['-', '2', '1', '4', '7', '4', '8', '3', '6', '4', '8']) := by decide
theorem test_ecall_selector_is_32_bits :
    look (executeWord 0x00000073 (mkCall 0x0001000A 0)) (fun t => (t.status, t.pc)) =
      some (.failed (.unsupportedSyscall 0x0001000A), 0x100) := by decide
theorem test_ecall_exit :
    look (executeWord 0x00000073 (mkCall 10 0)) (fun t => (t.status, t.pc)) = some (.exitedOk, 0x100) := by decide

/-- The word is judged before an address is formed (section 2.11). -/
theorem test_invalid_word_halts :
    look (executeWord 0x0000B183 (mk 0x5000 0)) (fun t => (t.status, t.pc)) =
      some (.failed (.invalidInstruction 0x0000B183), 0x100) := by decide
theorem test_execute_after_halt_is_ignored :
    let s : State := { mk 0 0 with status := .failed (.invalidInstruction 0) }
    executeWord 0x00508193 s = .next s := rfl
theorem test_status_codes :
    (Status.failed (.badRead 0x101 .alignment)).code = 3 ∧ (Status.failed .arithUndefined).code = 6 := by decide

/-! ### Disassembler lines (section 2.3 and program P5) -/

theorem test_render_register_register :
    render 0x003100B3 = line ['a', 'd', 'd', '\t', 'x', '1', ',', ' ', 'x', '2', ',', ' ', 'x', '3', '\n'] := by decide
theorem test_render_immediate :
    render 0x80000093 = line ['a', 'd', 'd', 'i', '\t', 'x', '1', ',', ' ', 'x', '0', ',', ' ', '-', '2', '0', '4', '8', '\n'] := by decide
theorem test_render_shift :
    render 0x40335293 = line ['s', 'r', 'a', 'i', '\t', 'x', '5', ',', ' ', 'x', '6', ',', ' ', '3', '\n'] := by decide
theorem test_render_load :
    render 0x7FF09F83 = line ['l', 'h', '\t', 'x', '3', '1', ',', ' ', '2', '0', '4', '7', '(', 'x', '1', ')', '\n'] := by decide
theorem test_render_store :
    render 0xFE20AE23 = line ['s', 'w', '\t', 'x', '2', ',', ' ', '-', '4', '(', 'x', '1', ')', '\n'] := by decide
theorem test_render_branch :
    render 0x80000063 = line ['b', 'e', 'q', '\t', 'x', '0', ',', ' ', 'x', '0', ',', ' ', '-', '4', '0', '9', '6', '\n'] := by decide
theorem test_render_lui :
    render 0xFFFFFFB7 = line ['l', 'u', 'i', '\t', 'x', '3', '1', ',', ' ', '1', '0', '4', '8', '5', '7', '5', '\n'] := by decide
theorem test_render_jal :
    render 0xDEADBEEF = line ['j', 'a', 'l', '\t', 'x', '2', '9', ',', ' ', '-', '1', '5', '0', '0', '3', '8', '\n'] := by decide
theorem test_render_ecall :
    render 0x00100073 = line ['e', 'c', 'a', 'l', 'l', '\n'] := by decide
theorem test_render_invalid :
    render 0x0220F1B3 = line ['I', 'n', 'v', 'a', 'l', 'i', 'd', ' ', 'I', 'n', 's', 't', 'r', 'u', 'c', 't', 'i', 'o', 'n', ':',
      ' ', '0', 'x', '0', '2', '2', '0', 'f', '1', 'b', '3', '\n'] := by decide

/-! ### Witnesses: the hypotheses of every statement are met -/

theorem witness_decodes : decode 0x003100B3#32 = .ok (.add 1 2 3) ∧ (Instr.jal 1 0x1FFFFC).wf = true ∧
    decode 0x063100B3#32 = .error .unknownFunction := by decide

/-- ControlAgreesWithDecoder: a valid word with a destination, one of the S, the B and no format, and an opcode of no row. -/
theorem witness_ControlAgreesWithDecoder :
    (decode 0x003100B3 = .ok (.add 1 2 3) ∧ (family (.add 1 2 3)).format ∈ [some .R, some .I, some .U, some .J]) ∧
    (decode 0xFE20AE23 = .ok (.sw 2 1 0xFFC) ∧ (family (.sw 2 1 0xFFC)).format ∈ [some .S, some .B, none]) ∧
    (decode 0x00208863 = .ok (.beq 1 2 16) ∧ (family (.beq 1 2 16)).format ∈ [some .S, some .B, none]) ∧
    (decode 0x00000073 = .ok .ecall ∧ (family .ecall).format ∈ [some .S, some .B, none]) ∧ familyOf 0x67 = none := by
  decide

theorem witness_DecodeMatchesTable :
    ((['a', 'd', 'd'], 0x00000033#32, 0xFE00707F#32) : List Char × Word × Word) ∈ table ∧
    (0x003100B3#32 : Word) &&& 0xFE00707F#32 = 0x00000033#32 := by decide

theorem witness_SignExtenderCopiesSign : (1 ≤ 1 ∧ 1 ≤ 32) ∧ (1 ≤ 32 ∧ 32 ≤ 32) ∧
    bits (0x1800#32 : Word).toNat 0 12 = bits (0x800#32 : Word).toNat 0 12 ∧ (0x1800#32 : Word) ≠ 0x800#32 := by decide

theorem witness_ImmediateRoundTrips :
    sg (immI (rawI (encI (BitVec.ofInt 12 (-2048)) 1 0 2 0x13))) = -2048 ∧
    sg (immS (rawS (encS (BitVec.ofInt 12 2047) 2 1 2 0x23))) = 2047 ∧
    sg (immB (rawB (encB (BitVec.ofInt 13 (-4096)) 2 1 0 0x63))) = -4096 ∧
    sg (immB (rawB (encB (BitVec.ofInt 13 4094) 2 1 0 0x63))) = 4094 ∧
    sg (immJ (rawJ (encJ (BitVec.ofInt 21 (-1048576)) 1 0x6F))) = -1048576 ∧
    sg (immJ (rawJ (encJ (BitVec.ofInt 21 1048574) 1 0x6F))) = 1048574 := by decide

/-- A word for every pair of function codes that a SelectsR names. -/
theorem witness_SelectsR :
    [(0x002081B3#32, 0#3, 0x00#7), (0x402081B3#32, 0#3, 0x20#7), (0x022081B3#32, 0#3, 0x01#7), (0x022091B3#32, 1#3, 0x01#7),
     (0x002091B3#32, 1#3, 0x00#7), (0x0020D1B3#32, 5#3, 0x00#7), (0x4020D1B3#32, 5#3, 0x20#7), (0x0020A1B3#32, 2#3, 0x00#7),
     (0x0020C1B3#32, 4#3, 0x00#7), (0x0020E1B3#32, 6#3, 0x00#7), (0x0020F1B3#32, 7#3, 0x00#7), (0x0220C1B3#32, 4#3, 0x01#7),
     (0x0220E1B3#32, 6#3, 0x01#7)].all
      (fun p => opcodeOf p.1 == 0x33#7 && funct3Of p.1 == p.2.1 && funct7Of p.1 == p.2.2) = true := by decide

/-- A word for every opcode and funct3 that a SelectsI, SelectsS or SelectsB names. -/
theorem witness_SelectsI_S_B :
    [(0x0000A193#32, 0x13#7, 2#3), (0x00508193#32, 0x13#7, 0#3), (0xFFF0C193#32, 0x13#7, 4#3), (0x8000E193#32, 0x13#7, 6#3),
     (0xFFF0F193#32, 0x13#7, 7#3), (0x00008183#32, 0x03#7, 0#3), (0x00009183#32, 0x03#7, 1#3), (0x0000A183#32, 0x03#7, 2#3),
     (0x00208023#32, 0x23#7, 0#3), (0x00209023#32, 0x23#7, 1#3), (0x0020A023#32, 0x23#7, 2#3), (0x00208863#32, 0x63#7, 0#3),
     (0xFE209CE3#32, 0x63#7, 1#3)].all (fun p => opcodeOf p.1 == p.2.1 && funct3Of p.1 == p.2.2) = true := by decide

theorem witness_ImmediateShiftsByShamt :
    (opcodeOf 0x7E409193 = 0x13#7 ∧ funct3Of 0x7E409193 = 1) ∧
    (opcodeOf 0x0040D193 = 0x13#7 ∧ funct3Of 0x0040D193 = 5 ∧ funct7Of 0x0040D193 = 0x00) ∧
    (opcodeOf 0x4040D193 = 0x13#7 ∧ funct3Of 0x4040D193 = 5 ∧ funct7Of 0x4040D193 = 0x20) ∧
    (opcodeOf 0x2040D193 = 0x13#7 ∧ funct3Of 0x2040D193 = 5 ∧ funct7Of 0x2040D193 ≠ 0x00 ∧
      funct7Of 0x2040D193 ≠ 0x20) := by decide

theorem witness_Jal_Lui_Ecall :
    opcodeOf 0x008000EF = 0x6F#7 ∧ opcodeOf 0xDEADC2B7 = 0x37#7 ∧ opcodeOf 0xFFFFFFF3 = 0x73#7 := by decide

/-- Div, Rem: both clauses, and the corner next to -2^31 by -1. -/
theorem witness_Div_Rem : ¬ Undefined 0xFFFFFFF9 2 ∧ ¬ Undefined 0x80000001 0xFFFFFFFF ∧ ¬ Undefined 0x80000000 1 ∧
    Undefined 5 0 ∧ Undefined 0x80000000 0xFFFFFFFF := by decide

/-- Loads: the last access in bounds, the first out of bounds, the two alignment clauses, at every width. -/
theorem witness_loads :
    ((0xFFF : Word) = to32 (u ((mk 0x1000 0).reg 1) + sg (0xFFF : BitVec 12)) ∧ InBounds 0xFFF 1 (mk 0x1000 0)) ∧
    ¬ InBounds 0x1000 1 (mk 0x1000 0) ∧
    (InBounds 0xFFE 2 (mk 0xFFE 0 [] true) ∧ AlignOk 0xFFE 2 (mk 0xFFE 0 [] true)) ∧ ¬ InBounds 0xFFF 2 (mk 0xFFF 0) ∧
    Misaligned 0xFFD 2 (mk 0xFFD 0 [] true) ∧
    (InBounds 0xFFC 4 (mk 0xFFC 0 [] true) ∧ AlignOk 0xFFC 4 (mk 0xFFC 0 [] true)) ∧ ¬ InBounds 0xFFD 4 (mk 0xFFD 0) ∧
    Misaligned 0xFFA 4 (mk 0xFFA 0 [] true) ∧ AlignOk 0x101 4 (mk 0x101 0) := by decide

/-- Stores: the same addresses, on a memory in canonical form that lists something. -/
theorem witness_stores :
    (mk 0xFFC 0xCAFEBABE loadMem true).mem.wf ∧ InBounds 0xFFC 4 (mk 0xFFC 0xCAFEBABE loadMem true) ∧
    AlignOk 0xFFC 4 (mk 0xFFC 0xCAFEBABE loadMem true) ∧ InBounds 0xFFF 1 (mk 0xFFF 0 loadMem) ∧
    InBounds 0xFFE 2 (mk 0xFFE 0 loadMem) ∧ ¬ InBounds 0xFFFFFFFC 4 (mk 0 0 loadMem) ∧
    Misaligned 0x202 4 (mk 0x202 0 loadMem true) ∧ Misaligned 0x201 2 (mk 0x201 0 loadMem true) := by decide

/-- sw completes, so the load-back clause of Sw has a state to speak of. -/
theorem witness_SwStoresWordLwReadsBack_next : ∃ t, exec (.sw 2 1 0) (mk 0x200 0xDEADBEEF loadMem true) = .next t := ⟨_, rfl⟩

/-- MixedWidths: a word written, a half inside it at its top, and reads just below and just above it. -/
theorem witness_MixedWidthsSeeSameBytes :
    (mk 0 0 loadMem).mem.wf ∧ (∃ t, memWrite true 0x200 .word 0xDEADBEEF (mk 0 0 loadMem) = .ok t) ∧
    ((0x202 : Word).toNat = (0x200 : Word).toNat + 2 ∧ 2 + Width.half.bytes ≤ Width.word.bytes) ∧
    (0x1FC : Word).toNat + Width.word.bytes ≤ (0x200 : Word).toNat ∧
    (0x200 : Word).toNat + Width.word.bytes ≤ (0x204 : Word).toNat := by
  refine ⟨by decide, ⟨_, rfl⟩, by decide, by decide, by decide⟩

theorem witness_BeqBne : (mk 7 7).reg 1 = (mk 7 7).reg 2 ∧ (mk 7 8).reg 1 ≠ (mk 7 8).reg 2 := by decide

theorem witness_Ecall :
    (mkCall 1 42).reg 10 = 1 ∧ (mkCall 10 0).reg 10 = 10 ∧
    ((mkCall 0 0).reg 10 = 0 ∧ (0 : Word) ≠ 1 ∧ (0 : Word) ≠ 10) ∧
    ((mkCall 0xFFFFFFFF 0).reg 10 = 0xFFFFFFFF ∧ (0xFFFFFFFF : Word) ≠ 1 ∧ (0xFFFFFFFF : Word) ≠ 10) := by decide

theorem witness_InvalidWordHaltsOrPrints : decode 0x00000000#32 = .error .unknownOpcode ∧ (mk 0 0).status = .running := by decide

theorem witness_HaltsExactlyOnCondition :
    conditionOf (.div 3 1 2) (mk 5 0) = some (.fail .arithUndefined) ∧ conditionOf (.div 3 1 2) (mk 5 1) = none ∧
    conditionOf (.lw 3 1 0) (mk 0x1000 0) = some (.fail (.badRead 0x1000 .bounds)) ∧
    conditionOf .ecall (mkCall 10 0) = some .exit := by decide

/-- HaltIsPrecise: a running state whose step halts (nothing placed: the word 0 at pc 0). -/
theorem witness_HaltIsPrecise :
    State.reset.status = .running ∧ ∃ t, step State.reset = .next t ∧ t.status ≠ .running :=
  ⟨rfl, _, rfl, by decide⟩

/-- HaltIsFinal: a halted state, with nothing, an EXECUTE and a DISASSEMBLE waiting. -/
theorem witness_HaltIsFinal :
    ({ mk 0 0 with status := .exitedOk } : State).Halted ∧
    (∃ t, step { mk 0 0 with status := .exitedOk } = .next t) ∧
    (∃ t, step { mk 0 0 with status := .exitedOk, commands := [.execute 0x00508193] } = .next t) ∧
    (∃ t, step { mk 0 0 with status := .exitedOk, commands := [.disassemble 0x00508193] } = .next t) :=
  ⟨by simp [State.Halted], ⟨_, rfl⟩, ⟨_, rfl⟩, ⟨_, rfl⟩⟩

/-- PcAdvance: one that goes on, one that halts. -/
theorem witness_PcAdvancesByRule :
    (mk 5 0).status = .running ∧ (∃ t, exec (.beq 1 2 16) (mk 5 5) = .next t ∧ t.status = .running) ∧
    (∃ t, exec (.div 3 1 2) (mk 5 0) = .next t ∧ t.status ≠ .running) ∧
    (∃ t, transact (.disassemble 0) (mk 0 0) = .next t) :=
  ⟨rfl, ⟨_, rfl, rfl⟩, ⟨_, rfl, by decide⟩, ⟨_, rfl⟩⟩

/-- RenderLayouts: a word for each of the seven layouts, lui, jal and ecall. -/
theorem witness_RenderLayouts :
    (decode 0x003100B3 = .ok (.add 1 2 3) ∧ .add 1 2 3 ∈ regRegForms 1 2 3) ∧
    (decode 0x80000093 = .ok (.addi 1 0 0x800) ∧ .addi 1 0 0x800 ∈ immForms 1 0 0x800) ∧
    (decode 0x40335293 = .ok (.srai 5 6 3) ∧ .srai 5 6 3 ∈ shiftForms 5 6 3) ∧
    (decode 0x7FF09F83 = .ok (.lh 31 1 0x7FF) ∧ .lh 31 1 0x7FF ∈ loadForms 31 1 0x7FF) ∧
    (decode 0xFE20AE23 = .ok (.sw 2 1 0xFFC) ∧ (.sw 2 1 0xFFC, 4) ∈ storeForms 2 1 0xFFC) ∧
    decode 0x80000063 = .ok (.beq 0 0 0x1000) ∧ decode 0xDEADC2B7 = .ok (.lui 5 0xDEADC) ∧
    decode 0xDEADBEEF = .ok (.jal 29 0x1DB5EA) ∧ decode 0x00100073 = .ok .ecall := by decide

/-- A state with add x3, x1, x2 in memory at its pc. -/
def withAdd : State := mk 7 8 [(0x100, 0xB3), (0x101, 0x81), (0x102, 0x20)]

theorem witness_StepRunsDecoded :
    withAdd.commands = [] ∧ withAdd.status = .running ∧ InBounds withAdd.pc 4 withAdd ∧
    decodeBytes [at_ withAdd 0x100, at_ withAdd 0x101, at_ withAdd 0x102, at_ withAdd 0x103] = .ok (.add 3 1 2, []) ∧
    (Instr.add 3 1 2).wf = true := by decide

/-- FetchAtPc: the last pc in bounds and the first out of bounds. -/
theorem witness_FetchAtPc :
    InBounds 0xFFC 4 { mk 0 0 with pc := 0xFFC } ∧ ¬ InBounds 0xFFD 4 { mk 0 0 with pc := 0xFFD } ∧
    (mk 0 0).commands = [] ∧ (mk 0 0).status = .running := by decide

/-- StepServesOffered: a DISASSEMBLE before something else; a valid word, an invalid word, and a word after a halt. -/
theorem witness_StepServesOffered :
    ({ mk 0 0 with commands := [.disassemble 0, .execute 1] } : State).commands = .disassemble 0 :: [.execute 1] ∧
    ({ mk 0 0 with commands := [.execute 0x002081B3] } : State).commands = .execute 0x002081B3 :: [] ∧
    (mk 0 0).status = .running ∧ decode 0x002081B3 = .ok (.add 3 1 2) ∧ decode 0 = .error .unknownOpcode ∧
    ({ mk 0 0 with status := .exitedOk, commands := [.execute 0] } : State).status ≠ .running := by decide

/-- PlacedWordRuns: with room at the pc for the last time, and without. -/
theorem witness_PlacedWordRuns :
    ({ mk 0 0 loadMem with pc := 0xFFC } : State).mem.wf ∧ InBounds 0xFFC 4 { mk 0 0 loadMem with pc := 0xFFC } ∧
    ({ mk 0 0 loadMem with pc := 0xFFD } : State).mem.wf ∧ ¬ InBounds 0xFFD 4 { mk 0 0 loadMem with pc := 0xFFD } ∧
    decode 0x002081B3 = .ok (.add 3 1 2) := by decide

theorem witness_StoreSeenByNextFetch :
    (mk 0x104 0x002081B3 loadMem true).mem.wf ∧ (mk 0x104 0x002081B3 loadMem true).commands = [] ∧
    (mk 0x104 0x002081B3 loadMem true).status = .running ∧
    storeAddress 1 0 (mk 0x104 0x002081B3 loadMem true) = to32 (u (mk 0x104 0x002081B3 loadMem true).pc + 4) ∧
    InBounds (storeAddress 1 0 (mk 0x104 0x002081B3 loadMem true)) 4 (mk 0x104 0x002081B3 loadMem true) ∧
    AlignOk (storeAddress 1 0 (mk 0x104 0x002081B3 loadMem true)) 4 (mk 0x104 0x002081B3 loadMem true) := by decide

/-- FrameRegisterForms: a member of every group, each with a next state. -/
theorem witness_FrameRegisterForms :
    (.add 3 1 2 ∈ plainRegRegForms 3 1 2 ∧ ∃ t, exec (.add 3 1 2) (mk 7 8) = .next t) ∧
    (.addi 3 1 5 ∈ immForms 3 1 5 ∧ ∃ t, exec (.addi 3 1 5) (mk 7 8) = .next t) ∧
    (.srai 3 1 4 ∈ shiftForms 3 1 4 ∧ ∃ t, exec (.srai 3 1 4) (mk 7 8) = .next t) ∧
    (∃ t, exec (.lui 3 1) (mk 7 8) = .next t) :=
  ⟨⟨by decide, _, rfl⟩, ⟨by decide, _, rfl⟩, ⟨by decide, _, rfl⟩, _, rfl⟩

/-- FrameHaltingRegisterForms: committing and halting. -/
theorem witness_FrameHaltingRegisterForms :
    (.lw 3 1 0 ∈ loadForms 3 1 0) ∧ (∃ t, exec (.lw 3 1 0) (mk 0x100 0 loadMem) = .next t ∧ t.status = .running) ∧
    (∃ t, exec (.lw 3 1 0) (mk 0x1000 0 loadMem) = .next t ∧ t.status ≠ .running) ∧
    (∃ t, exec (.rem 3 1 2) (mk 7 0) = .next t ∧ t.status ≠ .running) :=
  ⟨by decide, ⟨_, rfl, rfl⟩, ⟨_, rfl, by decide⟩, ⟨_, rfl, by decide⟩⟩

/-- FrameStores: committing and halting. -/
theorem witness_FrameStores :
    ((.sh 2 1 0, 2) ∈ storeForms 2 1 0) ∧ (∃ t, exec (.sh 2 1 0) (mk 0xFFE 1 loadMem) = .next t ∧ t.status = .running) ∧
    (∃ t, exec (.sh 2 1 0) (mk 0xFFF 1 loadMem) = .next t ∧ t.status ≠ .running) :=
  ⟨by decide, ⟨_, rfl, rfl⟩, ⟨_, rfl, by decide⟩⟩

/-- FrameControl: one state for each clause. -/
theorem witness_FrameControl :
    (∃ t, exec (.beq 1 2 16) (mk 7 7) = .next t) ∧ (∃ t, exec (.bne 1 2 16) (mk 7 7) = .next t) ∧
    (∃ t, exec (.jal 0 8) (mk 7 7) = .next t) ∧ (∃ t, exec .ecall (mkCall 1 42) = .next t) ∧
    (mkCall 1 42).reg 10 = 1 ∧ (∃ t, exec .ecall (mkCall 10 42) = .next t) ∧ (mkCall 10 42).reg 10 ≠ 1 :=
  ⟨⟨_, rfl⟩, ⟨_, rfl⟩, ⟨_, rfl⟩, ⟨_, rfl⟩, by decide, ⟨_, rfl⟩, by decide⟩

/-- OnlySourcesRead: two states that differ in a register add x3, x1, x2 does not read. -/
theorem witness_OnlySourcesRead :
    let s := mk 7 8
    let s' := s.setReg 4 0xBAD
    (∀ r ∈ sourceRegs (.add 3 1 2), s.reg r = s'.reg r) ∧ s.pc = s'.pc ∧ s.mem = s'.mem ∧ s.status = s'.status ∧
      s.params = s'.params ∧ s.reg 4 ≠ s'.reg 4 ∧ conditionOf (.add 3 1 2) s = none ∧
      destReg (.add 3 1 2) = some 3 ∧ (∃ t, exec (.add 3 1 2) s = .next t) ∧ (∃ t, exec (.add 3 1 2) s' = .next t) :=
  ⟨by decide, rfl, rfl, rfl, rfl, by decide, rfl, rfl, ⟨_, rfl⟩, ⟨_, rfl⟩⟩

/-- OutputOnlyGrows: a step that prints. -/
theorem witness_OutputOnlyGrows : ∃ t, step { mkCall 1 42 with commands := [.execute 0x00000073] } = .next t ∧ t.out ≠ [] :=
  ⟨_, rfl, by decide⟩

theorem witness_MemoryCanonical : Memory.wf loadMem ∧ ∀ a, Memory.read loadMem a = Memory.read loadMem a :=
  ⟨by decide, fun _ => rfl⟩

/-- StepKeepsInv: a state whose memory lists something satisfies the invariant and steps. -/
theorem witness_StepKeepsInv : withAdd.Inv ∧ ∃ t, step withAdd = .next t :=
  ⟨⟨by decide, by decide, by decide, by decide⟩, _, rfl⟩

/-- InitialisationLoads: parameters at both ends of their range and a memory that lists its last byte. -/
theorem witness_InitialisationLoads :
    (Params.wf { memorySpace := 1, alignCheckEn := true }) ∧ (Params.wf { memorySpace := 2 ^ 32, alignCheckEn := false }) ∧
    Memory.wf [(0, 1)] ∧ (∀ c ∈ ([(0, 1)] : Memory), c.1 < 1) := by decide

/-- MeaningsFollowControlOutputs: an instruction of every unit and every kind of access, with a next state, and a memory that
agrees with the loaded word and differs elsewhere. -/
theorem witness_MeaningsFollowControlOutputs :
    execUnit (.add 3 1 2) = .aluArithmeticLogical ∧ execUnit (.addi 3 1 5) = .aluArithmeticLogical ∧
    execUnit (.sra 3 1 2) = .shifterUnit ∧ execUnit (.srai 3 1 4) = .shifterUnit ∧
    execUnit (.jal 0 8) = .branchJumpLogic ∧ destReg (.jal 0 8) = some 0 ∧ execUnit (.lui 3 1) = .wiring ∧
    execUnit (.lw 3 1 0) ≠ .blockControl ∧
    (dataAccess (.add 3 1 2) = none ∧ ∃ t, exec (.add 3 1 2) (mk 7 8) = .next t ∧ t.status = .running) ∧
    (dataAccess (.lw 3 1 0) = some (.read .word) ∧ dataAddress (.lw 3 1 0) (mk 0x100 0 loadMem) = some 0x100 ∧
      (∀ k, k < Width.word.bytes → Memory.read ((0, 1) :: loadMem) (0x100 + k) = at_ (mk 0x100 0 loadMem) (0x100 + k)) ∧
      ∃ t, exec (.lw 3 1 0) (mk 0x100 0 loadMem) = .next t) ∧
    (dataAccess (.sh 2 1 0) = some (.write .half) ∧ dataAddress (.sh 2 1 0) (mk 0xFFE 1 loadMem) = some 0xFFE ∧
      ∃ t, exec (.sh 2 1 0) (mk 0xFFE 1 loadMem) = .next t) :=
  ⟨rfl, rfl, rfl, rfl, rfl, rfl, rfl, by decide, ⟨rfl, _, rfl, rfl⟩, ⟨rfl, by decide, by decide, _, rfl⟩,
    rfl, by decide, _, rfl⟩

end Sys2Proof.Tests
end

section
/-! PROOFS. The immediate_reconstructor undoes the encoders (R129): the raw field read from an encoded word is the field
put in, and extending the field of an in-range integer gives the integer back. -/

namespace Sys2Proof

/-- An even integer is an offset whose low bit is 0, at every width: twice anything is a shift to the left (R75, R77). -/
theorem evenOffset_ofInt (n : Nat) {o : Int} (h : o % 2 = 0) : evenOffset (BitVec.ofInt n o) = true := by
  obtain ⟨k, rfl⟩ := Int.dvd_of_emod_eq_zero h
  have htwo : BitVec.twoPow n 1 = BitVec.ofInt n 2 := BitVec.eq_of_toNat_eq (by simp [BitVec.toNat_twoPow])
  have hshift : BitVec.ofInt n (2 * k) = BitVec.ofInt n k <<< 1 := by
    rw [BitVec.shiftLeft_eq_mul_twoPow, htwo, ← BitVec.ofInt_mul, mul_comm]
  simp [evenOffset, hshift]

namespace Machine

/-! ### The signed reading of an extended immediate is that of its field (R122 to R125) -/

@[simp] theorem toInt_immI (imm : BitVec 12) : (immI imm).toInt = imm.toInt := toInt_sext_setWidth (by decide) imm
@[simp] theorem toInt_immS (imm : BitVec 12) : (immS imm).toInt = imm.toInt := toInt_sext_setWidth (by decide) imm
@[simp] theorem toInt_immB (off : BitVec 13) : (immB off).toInt = off.toInt := toInt_sext_setWidth (by decide) off
@[simp] theorem toInt_immJ (off : BitVec 21) : (immJ off).toInt = off.toInt := toInt_sext_setWidth (by decide) off

open Claim

/-- Settles O7: each encoder's fields are read back by their accessors, whatever the other fields; an even offset loses
nothing to the bit that is not encoded, and an integer in the range of its field is that field's signed reading. -/
theorem immediateRoundTrips : Obligations.ImmediateRoundTrips := by
  unfold Obligations.ImmediateRoundTrips
  refine ⟨fun v rs1 rd f3 op hl hu => ?_, fun v rs1 rs2 f3 op hl hu => ?_,
    fun o rs1 rs2 f3 op hl hu heven => ?_, fun o rd op hl hu heven => ?_⟩
  · rw [rawI_encI]
    exact (toInt_immI _).trans (BitVec.toInt_ofInt_eq_self (by decide) hl (by omega))
  · rw [rawS_encS]
    exact (toInt_immS _).trans (BitVec.toInt_ofInt_eq_self (by decide) hl (by omega))
  · rw [rawB_encB _ _ _ _ _ (evenOffset_ofInt 13 heven)]
    exact (toInt_immB _).trans (BitVec.toInt_ofInt_eq_self (by decide) hl (by omega))
  · rw [rawJ_encJ _ _ _ (evenOffset_ofInt 21 heven)]
    exact (toInt_immJ _).trans (BitVec.toInt_ofInt_eq_self (by decide) hl (by omega))

end Machine

end Sys2Proof
end

section
/-! PROOFS. The register-register arithmetic, comparison and logic (spec/43_alu_register_register.md): which words select
an instruction, that an ALU instruction with a defined result puts it in x[rd], and each result as the rules write it. -/

namespace Sys2Proof

/-- A word whose opcode selects a family decodes to the instruction the family's function codes select (R79, R103). -/
theorem decode_eq_ok {w : Word} {f : Family} {i : Instr} (hf : familyOf (opcodeOf w) = some f)
    (hi : decodeFamily w f = some i) : decode w = .ok i := by
  simp only [decode, hf, hi]

namespace Machine

open Claim

/-! ### Which words select an instruction (R81, R82) -/

/-- A pair of the register-register family selects its instruction with the word's own register fields. -/
theorem selectsR {f3 : BitVec 3} {f7 : BitVec 7} {mk : RegIdx → RegIdx → RegIdx → Instr}
    (h : ∀ rd rs1 rs2, decodeRegReg f3 f7 rd rs1 rs2 = some (mk rd rs1 rs2)) : SelectsR f3 f7 mk := by
  intro w hop hf3 hf7
  have hfam : familyOf (opcodeOf w) = some .registerRegister := by rw [hop]; rfl
  refine decode_eq_ok hfam ?_
  simp only [decodeFamily, hf3, hf7, h]

/-- A funct3 of the register-immediate family that decides alone selects its instruction with the word's I immediate. -/
theorem selectsI_regImm {f3 : BitVec 3} {mk : RegIdx → RegIdx → BitVec 12 → Instr}
    (h : ∀ f7 rd rs1 imm shamt, decodeRegImm f3 f7 rd rs1 imm shamt = some (mk rd rs1 imm)) :
    SelectsI 0x13 f3 mk := by
  intro w hop hf3
  have hfam : familyOf (opcodeOf w) = some .immediateExceptLoad := by rw [hop]; rfl
  refine decode_eq_ok hfam ?_
  simp only [decodeFamily, hf3, h]

/-! ### Committing a result -/

/-- Writing x[rd] and advancing is the next state the rules write. -/
theorem setReg_advance_eq_put (rd : RegIdx) (v : Word) (s : State) : (s.setReg rd v).advance = put rd v s := by
  simp only [put, to32_pc_add_four]; rfl

/-- An ALU instruction whose result is defined puts it in x[rd] (R180, R194). -/
theorem execAlu_eq_put {op : AluOp} {a b v : Word} (rd : RegIdx) (s : State) (h : alu op a b = some v) :
    execAlu op rd a b s = .next (put rd v s) := by
  simp only [execAlu, h, commit_eq, setReg_advance_eq_put]

/-! ### The ALU, an equation per operation that is always defined (R194) -/

theorem alu_add (a b : Word) : alu .add a b = some (to32 (u a + u b)) := by
  simp only [alu, to32_add, to32_toNat]

theorem alu_sub (a b : Word) : alu .sub a b = some (to32 (u a - u b)) := by
  simp only [alu, to32_sub, to32_toNat]

theorem alu_mul (a b : Word) : alu .mul a b = some (to32 (sg a * sg b)) := by
  simp only [alu, to32_mul, to32_toInt]

/-- Bits 63:32 of the 64-bit pattern of an integer are the low word of its floor by 2^32. -/
theorem high_word_ofInt (z : Int) : (BitVec.ofInt 64 z).extractLsb' 32 32 = to32 (z / 2 ^ 32) := by
  apply BitVec.eq_of_toNat_eq
  simp only [to32, BitVec.extractLsb'_toNat, BitVec.toNat_ofInt, Nat.shiftRight_eq_div_pow]
  omega

/-- Sign extension to 64 bits is the 64-bit pattern of the signed reading, so the 64-bit product is that of the integer
product (R185). -/
theorem alu_mulh (a b : Word) : alu .mulh a b = some (to32 (sg a * sg b / 2 ^ 32)) := by
  rw [← high_word_ofInt, BitVec.ofInt_mul]; rfl

/-- The comparison is that of the signed readings (R186). -/
theorem alu_slt (a b : Word) : alu .slt a b = some (to32 (if sg a < sg b then 1 else 0)) := by
  simp only [alu, lessThan, BitVec.slt_iff_toInt_lt]
  split <;> rfl

/-- Against an extended immediate it is that with the field's signed reading (R213). -/
theorem alu_slt_immI (a : Word) (imm : BitVec 12) :
    alu .slt a (immI imm) = some (to32 (if sg a < sg imm then 1 else 0)) := by
  simp only [alu_slt, sg, toInt_immI]

theorem alu_xor (a b : Word) : alu .xor a b = some (a ^^^ b) := rfl
theorem alu_or (a b : Word) : alu .or a b = some (a ||| b) := rfl
theorem alu_and (a b : Word) : alu .and a b = some (a &&& b) := rfl

/-! ### The obligations -/

/-- Settles O9: the low word is the product of the patterns, the high word a slice of the product of the 64-bit
extensions; both are patterns of the integer product. -/
theorem mulMulhHalvesOfProduct : Obligations.MulMulhHalvesOfProduct := by
  unfold Obligations.MulMulhHalvesOfProduct
  refine ⟨selectsR fun _ _ _ => rfl, selectsR fun _ _ _ => rfl, fun rd rs1 rs2 s => ⟨?_, ?_⟩⟩
  · exact execAlu_eq_put rd s (alu_mul ..)
  · exact execAlu_eq_put rd s (alu_mulh ..)

/-- Settles O8: `to32` carries sums and differences of the unsigned readings to those of the patterns. -/
theorem addSubWrap : Obligations.AddSubWrap := by
  unfold Obligations.AddSubWrap
  refine ⟨selectsR fun _ _ _ => rfl, selectsR fun _ _ _ => rfl, fun rd rs1 rs2 s => ⟨?_, ?_⟩⟩
  · exact execAlu_eq_put rd s (alu_add ..)
  · exact execAlu_eq_put rd s (alu_sub ..)

/-- Settles O11: one comparison serves both, as the extended immediate has the signed reading of its field. -/
theorem setLessThanSigned : Obligations.SetLessThanSigned := by
  unfold Obligations.SetLessThanSigned
  refine ⟨selectsR fun _ _ _ => rfl, selectsI_regImm fun _ _ _ _ _ => rfl, fun rd rs1 rs2 s => ?_,
    fun rd rs1 imm s => ?_⟩
  · exact execAlu_eq_put rd s (alu_slt ..)
  · exact execAlu_eq_put rd s (alu_slt_immI ..)

/-- Settles O12: the results are the bitwise operations on the two patterns. -/
theorem registerLogicBitwise : Obligations.RegisterLogicBitwise := by
  unfold Obligations.RegisterLogicBitwise
  refine ⟨selectsR fun _ _ _ => rfl, selectsR fun _ _ _ => rfl, selectsR fun _ _ _ => rfl, fun rd rs1 rs2 s =>
    ⟨s.reg rs1 ^^^ s.reg rs2, s.reg rs1 ||| s.reg rs2, s.reg rs1 &&& s.reg rs2, ?_, ?_, ?_, fun k _ => ?_⟩⟩
  · exact execAlu_eq_put rd s (alu_xor ..)
  · exact execAlu_eq_put rd s (alu_or ..)
  · exact execAlu_eq_put rd s (alu_and ..)
  · exact ⟨BitVec.getLsbD_xor, BitVec.getLsbD_or, BitVec.getLsbD_and⟩

end Machine

end Sys2Proof
end

section
/-! PROOFS. The register-immediate addition and logic (spec/44_alu_register_immediate.md): the extended immediate as the
second operand, read as a signed number by addi and bit by bit by xori, ori and andi. -/

namespace Sys2Proof

namespace Machine

open Claim

/-! ### The extended immediate as an operand (R122, R210) -/

/-- Below bit 11 the extended immediate is the field, from there on it is the field's bit 11. -/
theorem getLsbD_immI (imm : BitVec 12) {k : Nat} (hk : k < 32) : (immI imm).getLsbD k = imm.getLsbD (min k 11) := by
  have hext : immI imm = imm.signExtend 32 := sext_setWidth (by decide) imm
  rw [hext, BitVec.getLsbD_signExtend, decide_eq_true hk, Bool.true_and]
  split
  case isTrue hfield => rw [Nat.min_eq_left (by omega)]
  case isFalse hsign => rw [Nat.min_eq_right (by omega), BitVec.msb_eq_getLsbD_last]

/-- A sum with the extended immediate is that with the field's signed reading (R211). -/
theorem alu_add_immI (a : Word) (imm : BitVec 12) : alu .add a (immI imm) = some (to32 (u a + sg imm)) := by
  simp only [alu, to32_add, to32_toNat, immI_eq]

/-! ### The obligations -/

/-- Settles O15: the extended immediate is the pattern of the field's signed reading, and `to32` carries the sum. -/
theorem addiWraps : Obligations.AddiWraps := by
  unfold Obligations.AddiWraps
  refine ⟨selectsI_regImm fun _ _ _ _ _ => rfl, fun rd rs1 imm s => ?_⟩
  exact execAlu_eq_put rd s (alu_add_immI ..)

/-- Settles O16: the results are the bitwise operations on the register and the extended immediate, whose bits are those of
the field. -/
theorem immediateLogicBitwise : Obligations.ImmediateLogicBitwise := by
  unfold Obligations.ImmediateLogicBitwise
  refine ⟨selectsI_regImm fun _ _ _ _ _ => rfl, selectsI_regImm fun _ _ _ _ _ => rfl,
    selectsI_regImm fun _ _ _ _ _ => rfl, fun rd rs1 imm s =>
    ⟨s.reg rs1 ^^^ immI imm, s.reg rs1 ||| immI imm, s.reg rs1 &&& immI imm, ?_, ?_, ?_, fun k hk => ?_⟩⟩
  · exact execAlu_eq_put rd s (alu_xor ..)
  · exact execAlu_eq_put rd s (alu_or ..)
  · exact execAlu_eq_put rd s (alu_and ..)
  · rw [← getLsbD_immI imm hk]
    exact ⟨BitVec.getLsbD_xor, BitVec.getLsbD_or, BitVec.getLsbD_and⟩

end Machine

end Sys2Proof
end

section
/-! PROOFS. Branches and the jump (spec/46_branch_jump.md): which words select them, and the outputs of branch_jump_logic as
the rules write them. -/

namespace Sys2Proof

namespace Machine

open Claim

/-! ### Which words select an instruction (R85, R103) -/

/-- A funct3 of the branch family selects its instruction with the word's own registers and offset. -/
theorem selectsB {f3 : BitVec 3} {mk : RegIdx → RegIdx → BitVec 13 → Instr}
    (h : ∀ rs1 rs2 off, decodeBranch f3 rs1 rs2 off = some (mk rs1 rs2 off)) : SelectsB f3 mk := by
  intro w hop hf3
  have hfam : familyOf (opcodeOf w) = some .branch := by rw [hop]; rfl
  refine decode_eq_ok hfam ?_
  simp only [decodeFamily, hf3, h]

/-- The opcode of the jump alone selects jal, with the word's own destination and offset. -/
theorem decode_jal {w : Word} (hop : opcodeOf w = 0x6F#7) : decode w = .ok (.jal (rdOf w) (rawJ w)) := by
  have hfam : familyOf (opcodeOf w) = some .jumpAndLink := by rw [hop]; rfl
  exact decode_eq_ok hfam rfl

/-! ### The outputs of branch_jump_logic (R250) -/

theorem takenBeq_of_eq {a b : Word} (h : a = b) : takenBeq a b = true := beq_iff_eq.mpr h
theorem takenBeq_of_ne {a b : Word} (h : a ≠ b) : takenBeq a b = false := beq_eq_false_iff_ne.mpr h

theorem branchNextPc_taken (pc : Word) (off : BitVec 13) : branchNextPc true pc off = to32 (u pc + sg off) := by
  rw [to32_add, to32_toNat, ← immB_eq]; rfl

theorem branchNextPc_untaken (pc : Word) (off : BitVec 13) : branchNextPc false pc off = to32 (u pc + 4) :=
  (to32_pc_add_four pc).symm

theorem jumpNextPc_eq (pc : Word) (off : BitVec 21) : jumpNextPc pc off = to32 (u pc + sg off) := by
  rw [to32_add, to32_toNat, ← immJ_eq]; rfl

theorem linkValue_eq (pc : Word) : linkValue pc = to32 (u pc + 4) := (to32_pc_add_four pc).symm

/-! ### What the instructions do, through those outputs (R251, R253) -/

theorem exec_beq (rs1 rs2 : RegIdx) (off : BitVec 13) (s : State) :
    exec (.beq rs1 rs2 off) s =
      .next (s.setPc (branchNextPc (takenBeq (s.reg rs1) (s.reg rs2)) s.pc off)) := rfl

theorem exec_jal (rd : RegIdx) (off : BitVec 21) (s : State) :
    exec (.jal rd off) s = .next ((s.setReg rd (linkValue s.pc)).setPc (jumpNextPc s.pc off)) := rfl

/-! ### The obligations -/

/-- Settles O28: the comparison decides which of the two sums is the next pc, and nothing but the pc is written. -/
theorem beqBranchesWhenEqual : Obligations.BeqBranchesWhenEqual := by
  unfold Obligations.BeqBranchesWhenEqual
  refine ⟨selectsB fun _ _ _ => rfl, fun rs1 rs2 off s => ⟨fun heq => ?_, fun hne => ?_⟩⟩
  · rw [exec_beq, takenBeq_of_eq heq, branchNextPc_taken]; rfl
  · rw [exec_beq, takenBeq_of_ne hne, branchNextPc_untaken]; rfl

/-- Settles O30: the link and the target are both sums of the pc before the instruction, for every destination. -/
theorem jalLinksAndJumps : Obligations.JalLinksAndJumps := by
  unfold Obligations.JalLinksAndJumps
  refine ⟨fun w hop => decode_jal hop, fun rd off s => ?_⟩
  rw [exec_jal, linkValue_eq, jumpNextPc_eq]; rfl

end Machine

end Sys2Proof
end

section
/-! PROOFS. lui (spec/47_upper_immediate.md): which words select it, and the two forms of the value it writes. -/

namespace Sys2Proof

namespace Machine

open Claim

/-- The opcode of lui alone selects it, with the word's own destination and upper immediate (R80, R103). -/
theorem decode_lui {w : Word} (hop : opcodeOf w = 0x37#7) : decode w = .ok (.lui (rdOf w) (imm20Of w)) := by
  have hfam : familyOf (opcodeOf w) = some .upperImmediate := by rw [hop]; rfl
  exact decode_eq_ok hfam rfl

/-! ### The value lui writes (R126, R265) -/

/-- It is the pattern of the immediate's multiple of 2^12. -/
theorem upper_eq_to32 (imm20 : BitVec 20) : upper imm20 = to32 (imm20.toNat * 2 ^ 12) := by
  have hpow : to32 (2 ^ 12) = BitVec.twoPow 32 12 := by decide
  have himm : to32 imm20.toNat = imm20.setWidth 32 :=
    (BitVec.ofInt_natCast ..).trans (BitVec.ofNat_toNat ..)
  rw [to32_mul, hpow, himm]
  exact BitVec.shiftLeft_eq_mul_twoPow ..

/-- Widened again, the upper immediate of a word is the word with its low 12 bits shifted out. -/
theorem setWidth_imm20Of (w : Word) : (imm20Of w).setWidth 32 = w >>> 12 := by
  apply BitVec.eq_of_toNat_eq
  simp only [imm20Of, BitVec.toNat_setWidth, BitVec.extractLsb'_toNat, BitVec.toNat_ushiftRight,
    Nat.shiftRight_eq_div_pow]
  omega

/-- Shifting the low 12 bits out and back in clears them. -/
theorem upper_imm20Of (w : Word) : upper (imm20Of w) = w &&& 0xFFFFF000 := by
  have hmask : (0xFFFFF000 : Word) = BitVec.allOnes 32 <<< 12 := by decide
  rw [upper, setWidth_imm20Of, hmask, BitVec.shiftLeft_ushiftRight]

/-- lui puts its value in x[rd] (R265). -/
theorem exec_lui (rd : RegIdx) (imm20 : BitVec 20) (s : State) :
    exec (.lui rd imm20) s = .next (put rd (upper imm20) s) := by
  rw [← setReg_advance_eq_put]; rfl

/-- Settles O31: the opcode alone selects lui, and the one value it puts in x[rd] has both forms. -/
theorem luiWritesUpperBits : Obligations.LuiWritesUpperBits := by
  unfold Obligations.LuiWritesUpperBits
  refine ⟨fun w hop => decode_lui hop, fun rd imm20 s => ?_, fun w s _ => ?_⟩
  · rw [exec_lui, upper_eq_to32]; rfl
  · rw [exec_lui, upper_imm20Of]

end Machine

end Sys2Proof
end

section
/-! PROOFS. The decoder and the encoder undo each other (R108): what a family's function codes select encodes to the word, and
what a format encodes decodes to the instruction, said once per family and format. -/

namespace Sys2Proof

open Machine Claim

/-! ### The opcode of a family (R80) -/

/-- The opcode that selects a family. -/
def Family.opcode : Family → BitVec 7
  | .registerRegister => 0x33
  | .immediateExceptLoad => 0x13
  | .load => 0x03
  | .store => 0x23
  | .branch => 0x63
  | .upperImmediate => 0x37
  | .jumpAndLink => 0x6F
  | .systemCall => 0x73

theorem familyOf_eq_some_iff {op : BitVec 7} {f : Family} : familyOf op = some f ↔ op = f.opcode := by
  constructor
  · unfold familyOf
    split <;> rintro ⟨⟩ <;> rfl
  · rintro rfl
    cases f <;> rfl

/-- A word decodes to what the family of its opcode selects (R102, R103). -/
theorem decode_eq_ok_iff {w : Word} {i : Instr} :
    decode w = .ok i ↔ ∃ f : Family, opcodeOf w = f.opcode ∧ decodeFamily w f = some i := by
  simp only [← familyOf_eq_some_iff]
  constructor
  · unfold decode
    split
    · rintro ⟨⟩
    next f hf =>
      split
      · rintro ⟨⟩
      next hi =>
        rintro ⟨⟩
        exact ⟨f, hf, hi⟩
  · rintro ⟨f, hf, hi⟩
    exact decode_eq_ok hf hi

/-! ### Slices of a masked word -/

/-- A word is its six slices at the field boundaries of R71. -/
theorem eq_of_slices {v w : Word} (h0 : v.extractLsb' 0 7 = w.extractLsb' 0 7)
    (h7 : v.extractLsb' 7 5 = w.extractLsb' 7 5) (h12 : v.extractLsb' 12 3 = w.extractLsb' 12 3)
    (h15 : v.extractLsb' 15 5 = w.extractLsb' 15 5) (h20 : v.extractLsb' 20 5 = w.extractLsb' 20 5)
    (h25 : v.extractLsb' 25 7 = w.extractLsb' 25 7) : v = w := by
  rw [← encR_fields v, ← encR_fields w]
  simp only [funct7Of, rs2Of, rs1Of, funct3Of, rdOf, opcodeOf, h0, h7, h12, h15, h20, h25]

theorem slice_rdOf (w : Word) : regField (rdOf w) = w.extractLsb' 7 5 := regField_toFin _
theorem slice_rs1Of (w : Word) : regField (rs1Of w) = w.extractLsb' 15 5 := regField_toFin _

section
variable {w m : Word} {lo n : Nat}

theorem slice_and_of_ones (h : m.extractLsb' lo n = BitVec.allOnes n) :
    (w &&& m).extractLsb' lo n = w.extractLsb' lo n := by
  rw [BitVec.extractLsb'_and, h, BitVec.and_allOnes]

theorem slice_and_of_zero (h : m.extractLsb' lo n = 0#n) : (w &&& m).extractLsb' lo n = 0#n := by
  rw [BitVec.extractLsb'_and, h, BitVec.and_zero]
end

/-! ### What a family's function codes select -/

/-- The instruction is well-formed, and its encoding is the word with the bits it ignores clear (R92, R108). -/
def Encodes (i : Instr) (w : Word) : Prop := i.wf = true ∧ encode i = w &&& ~~~(ignoredMask i)

theorem encodes_of_eq {i : Instr} {w : Word} (hwf : i.wf = true) (hmask : ignoredMask i = 0) (h : encode i = w) :
    Encodes i w := by
  refine ⟨hwf, ?_⟩
  rw [h, hmask]
  exact BitVec.and_allOnes.symm

section
variable {f3 : BitVec 3} {f7 : BitVec 7} {rd rs1 rs2 : RegIdx} {i : Instr}

theorem decodeRegReg_encodes (h : decodeRegReg f3 f7 rd rs1 rs2 = some i) :
    Encodes i (encR f7 rs2 rs1 f3 rd 0x33#7) := by
  unfold decodeRegReg at h
  split at h <;> cases h <;> exact encodes_of_eq rfl rfl rfl

theorem decodeLoad_encodes {imm : BitVec 12} (h : decodeLoad f3 rd rs1 imm = some i) :
    Encodes i (encI imm rs1 f3 rd 0x03#7) := by
  unfold decodeLoad at h
  split at h <;> cases h <;> exact encodes_of_eq rfl rfl rfl

theorem decodeStore_encodes {imm : BitVec 12} (h : decodeStore f3 rs2 rs1 imm = some i) :
    Encodes i (encS imm rs2 rs1 f3 0x23#7) := by
  unfold decodeStore at h
  split at h <;> cases h <;> exact encodes_of_eq rfl rfl rfl

theorem decodeBranch_encodes {off : BitVec 13} (heven : evenOffset off = true)
    (h : decodeBranch f3 rs1 rs2 off = some i) : Encodes i (encB off rs2 rs1 f3 0x63#7) := by
  unfold decodeBranch at h
  split at h <;> cases h <;> exact encodes_of_eq heven rfl rfl

theorem decodeShiftRight_encodes {shamt : BitVec 5} (h : decodeShiftRight f7 rd rs1 shamt = some i) :
    Encodes i (encI (f7 ++ shamt) rs1 5#3 rd 0x13#7) := by
  unfold decodeShiftRight at h
  split at h <;> cases h <;> exact encodes_of_eq rfl rfl rfl

/-- slli ignores word[31:25]: clearing them leaves its own encoding (R82, R87). -/
theorem slli_encodes (f7 : BitVec 7) (rd rs1 : RegIdx) (shamt : BitVec 5) :
    Encodes (.slli rd rs1 shamt) (encI (f7 ++ shamt) rs1 1#3 rd 0x13#7) := by
  have hmask : ~~~(0xFE000000 : Word) = 0x01FFFFFF := by decide
  refine ⟨rfl, ?_⟩
  change encI (0#7 ++ shamt) rs1 1#3 rd 0x13#7 = _ &&& ~~~(0xFE000000 : Word)
  rw [hmask]
  apply eq_of_slices
  · rw [slice_and_of_ones (by decide), ← opcodeOf, ← opcodeOf, opcodeOf_encI, opcodeOf_encI]
  · rw [slice_and_of_ones (by decide), ← slice_rdOf, ← slice_rdOf, rdOf_encI, rdOf_encI]
  · rw [slice_and_of_ones (by decide), ← funct3Of, ← funct3Of, funct3Of_encI, funct3Of_encI]
  · rw [slice_and_of_ones (by decide), ← slice_rs1Of, ← slice_rs1Of, rs1Of_encI, rs1Of_encI]
  · rw [slice_and_of_ones (by decide), ← shamtOf, ← shamtOf, shamtOf_encI, shamtOf_encI]
  · rw [slice_and_of_zero (by decide), ← funct7Of, funct7Of_encI]

theorem decodeRegImm_encodes {shamt : BitVec 5} (h : decodeRegImm f3 f7 rd rs1 (f7 ++ shamt) shamt = some i) :
    Encodes i (encI (f7 ++ shamt) rs1 f3 rd 0x13#7) := by
  unfold decodeRegImm at h
  split at h
  case h_2 => cases h; exact slli_encodes ..
  case h_5 => exact decodeShiftRight_encodes h
  all_goals cases h
  all_goals exact encodes_of_eq rfl rfl rfl
end

/-- ecall ignores word[31:7]: clearing them leaves its own encoding (R86, R87). -/
theorem ecall_encodes {w : Word} (hop : opcodeOf w = 0x73) : Encodes .ecall w := by
  have hmask : ~~~(0xFFFFFF80 : Word) = 0x0000007F := by decide
  refine ⟨rfl, ?_⟩
  change 0x00000073#32 = w &&& ~~~(0xFFFFFF80 : Word)
  rw [hmask]
  apply eq_of_slices
  · rw [slice_and_of_ones (by decide)]
    exact hop.symm
  all_goals
    rw [slice_and_of_zero (by decide)]
    rfl

/-- Whatever a family selects from a word of its opcode encodes to the word (R92, R108). -/
theorem decodeFamily_encodes {w : Word} {f : Family} {i : Instr} (hop : opcodeOf w = f.opcode)
    (h : decodeFamily w f = some i) : Encodes i w := by
  cases f with
  | registerRegister =>
    have hw := encR_fields w
    rw [hop] at hw
    exact hw ▸ decodeRegReg_encodes h
  | immediateExceptLoad =>
    have hw := encI_fields w
    rw [hop, ← funct7_shamt] at hw
    rw [decodeFamily, ← funct7_shamt] at h
    exact hw ▸ decodeRegImm_encodes h
  | load =>
    have hw := encI_fields w
    rw [hop] at hw
    exact hw ▸ decodeLoad_encodes h
  | store =>
    have hw := encS_fields w
    rw [hop] at hw
    exact hw ▸ decodeStore_encodes h
  | branch =>
    have hw := encB_fields w
    rw [hop] at hw
    exact hw ▸ decodeBranch_encodes (evenOffset_rawB w) h
  | upperImmediate =>
    have hw := encU_fields w
    rw [hop] at hw
    cases h
    exact encodes_of_eq rfl rfl hw
  | jumpAndLink =>
    have hw := encJ_fields w
    rw [hop] at hw
    cases h
    exact encodes_of_eq (evenOffset_rawJ w) rfl hw
  | systemCall =>
    cases h
    exact ecall_encodes hop

/-- Decoding a word and encoding the instruction clears the ignored bits and changes no other (R108). -/
theorem encodes_of_decode {w : Word} {i : Instr} (h : decode w = .ok i) : Encodes i w := by
  obtain ⟨f, hop, hi⟩ := decode_eq_ok_iff.mp h
  exact decodeFamily_encodes hop hi

/-! ### What an encoded word decodes to (R92, R108) -/

section
variable {f3 : BitVec 3} {f7 : BitVec 7} {rd rs1 rs2 : RegIdx} {i : Instr}

theorem decode_encR (h : decodeRegReg f3 f7 rd rs1 rs2 = some i) :
    decode (encR f7 rs2 rs1 f3 rd 0x33#7) = .ok i :=
  decode_eq_ok_iff.mpr ⟨.registerRegister, opcodeOf_encR .., by simpa [decodeFamily] using h⟩

/-- Under the funct3 of a 12-bit immediate, whatever stands in word[31:25] and word[24:20]. -/
theorem decode_encI {imm : BitVec 12} (h : ∀ f7 shamt, decodeRegImm f3 f7 rd rs1 imm shamt = some i) :
    decode (encI imm rs1 f3 rd 0x13#7) = .ok i :=
  decode_eq_ok_iff.mpr ⟨.immediateExceptLoad, opcodeOf_encI .., by simp [decodeFamily, h]⟩

theorem decode_encI_shift {shamt : BitVec 5} (h : decodeRegImm f3 f7 rd rs1 (f7 ++ shamt) shamt = some i) :
    decode (encI (f7 ++ shamt) rs1 f3 rd 0x13#7) = .ok i :=
  decode_eq_ok_iff.mpr ⟨.immediateExceptLoad, opcodeOf_encI .., by simpa [decodeFamily] using h⟩

theorem decode_encI_load {imm : BitVec 12} (h : decodeLoad f3 rd rs1 imm = some i) :
    decode (encI imm rs1 f3 rd 0x03#7) = .ok i :=
  decode_eq_ok_iff.mpr ⟨.load, opcodeOf_encI .., by simpa [decodeFamily] using h⟩

theorem decode_encS {imm : BitVec 12} (h : decodeStore f3 rs2 rs1 imm = some i) :
    decode (encS imm rs2 rs1 f3 0x23#7) = .ok i :=
  decode_eq_ok_iff.mpr ⟨.store, opcodeOf_encS .., by simpa [decodeFamily] using h⟩

theorem decode_encB {off : BitVec 13} (heven : evenOffset off = true) (h : decodeBranch f3 rs1 rs2 off = some i) :
    decode (encB off rs2 rs1 f3 0x63#7) = .ok i :=
  decode_eq_ok_iff.mpr ⟨.branch, opcodeOf_encB .., by simpa [decodeFamily, rawB_encB, heven] using h⟩

theorem decode_encU (rd : RegIdx) (imm20 : BitVec 20) : decode (encU imm20 rd 0x37#7) = .ok (.lui rd imm20) :=
  decode_eq_ok_iff.mpr ⟨.upperImmediate, opcodeOf_encU .., by simp [decodeFamily]⟩

theorem decode_encJ (rd : RegIdx) {off : BitVec 21} (heven : evenOffset off = true) :
    decode (encJ off rd 0x6F#7) = .ok (.jal rd off) :=
  decode_eq_ok_iff.mpr ⟨.jumpAndLink, opcodeOf_encJ .., by simp [decodeFamily, rawJ_encJ, heven]⟩
end

theorem decode_encode {i : Instr} (hwf : i.wf = true) : decode (encode i) = .ok i := by
  cases i with
  | add | mul | sub | sll | mulh | slt | xor | div | srl | sra | or | rem | and => exact decode_encR rfl
  | addi | slti | xori | ori | andi => exact decode_encI fun _ _ => rfl
  | slli | srli | srai => exact decode_encI_shift rfl
  | lb | lh | lw => exact decode_encI_load rfl
  | sb | sh | sw => exact decode_encS rfl
  | beq | bne => exact decode_encB hwf rfl
  | lui => exact decode_encU ..
  | jal => exact decode_encJ _ hwf
  | ecall => rfl

/-- Settles O2: each format's fields are read back from its encoding, and a word is the reassembly of its fields, so only the
ignored bits can differ. -/
theorem decodeEncodeAgree : Obligations.DecodeEncodeAgree := by
  unfold Obligations.DecodeEncodeAgree
  exact ⟨fun _ hwf => decode_encode hwf, fun _ _ h => encodes_of_decode h⟩

end Sys2Proof
end

section
/-! PROOFS. The control outputs of the instruction_decoder (R102, R105) against the decoded kind, and the decoder against
spec/opcode_table.json. -/

namespace Sys2Proof

open Machine Claim

/-! ### Family, destination and sources of what a family selects -/

/-- The family, the destination and the source registers of an instruction. -/
def HasControl (i : Instr) (f : Family) (dest : Option RegIdx) (sources : List RegIdx) : Prop :=
  family i = f ∧ destReg i = dest ∧ sourceRegs i = sources

section
variable {f3 : BitVec 3} {f7 : BitVec 7} {rd rs1 rs2 : RegIdx} {i : Instr}

theorem decodeRegReg_control (h : decodeRegReg f3 f7 rd rs1 rs2 = some i) :
    HasControl i .registerRegister (some rd) [rs1, rs2] := by
  unfold decodeRegReg at h
  split at h <;> cases h <;> exact ⟨rfl, rfl, rfl⟩

theorem decodeShiftRight_control {shamt : BitVec 5} (h : decodeShiftRight f7 rd rs1 shamt = some i) :
    HasControl i .immediateExceptLoad (some rd) [rs1] := by
  unfold decodeShiftRight at h
  split at h <;> cases h <;> exact ⟨rfl, rfl, rfl⟩

theorem decodeRegImm_control {imm : BitVec 12} {shamt : BitVec 5} (h : decodeRegImm f3 f7 rd rs1 imm shamt = some i) :
    HasControl i .immediateExceptLoad (some rd) [rs1] := by
  unfold decodeRegImm at h
  split at h
  case h_5 => exact decodeShiftRight_control h
  all_goals cases h
  all_goals exact ⟨rfl, rfl, rfl⟩

theorem decodeLoad_control {imm : BitVec 12} (h : decodeLoad f3 rd rs1 imm = some i) :
    HasControl i .load (some rd) [rs1] := by
  unfold decodeLoad at h
  split at h <;> cases h <;> exact ⟨rfl, rfl, rfl⟩

theorem decodeStore_control {imm : BitVec 12} (h : decodeStore f3 rs2 rs1 imm = some i) :
    HasControl i .store none [rs1, rs2] := by
  unfold decodeStore at h
  split at h <;> cases h <;> exact ⟨rfl, rfl, rfl⟩

theorem decodeBranch_control {off : BitVec 13} (h : decodeBranch f3 rs1 rs2 off = some i) :
    HasControl i .branch none [rs1, rs2] := by
  unfold decodeBranch at h
  split at h <;> cases h <;> exact ⟨rfl, rfl, rfl⟩
end

/-- The registers a kind of a family uses, as fields of its word (R23, R105). -/
def Family.sourcesOf (w : Word) : Family → List RegIdx
  | .registerRegister | .store | .branch => [rs1Of w, rs2Of w]
  | .immediateExceptLoad | .load => [rs1Of w]
  | .upperImmediate | .jumpAndLink => []
  | .systemCall => [selectorReg, argumentReg]

/-- The register a kind of a family writes, as a field of its word: formats R, I, U and J have one (R105). -/
def Family.destOf (w : Word) : Family → Option RegIdx
  | .registerRegister | .immediateExceptLoad | .load | .upperImmediate | .jumpAndLink => some (rdOf w)
  | .store | .branch | .systemCall => none

theorem decodeFamily_control {w : Word} {f : Family} {i : Instr} (h : decodeFamily w f = some i) :
    HasControl i f (f.destOf w) (f.sourcesOf w) := by
  cases f with
  | registerRegister => exact decodeRegReg_control h
  | immediateExceptLoad => exact decodeRegImm_control h
  | load => exact decodeLoad_control h
  | store => exact decodeStore_control h
  | branch => exact decodeBranch_control h
  | upperImmediate | jumpAndLink | systemCall =>
    cases h
    exact ⟨rfl, rfl, rfl⟩

theorem destOf_of_format {w : Word} {f : Family} (h : f.format ∈ [some .R, some .I, some .U, some .J]) :
    f.destOf w = some (rdOf w) := by
  cases f with
  | store | branch | systemCall => simp [Family.format] at h
  | registerRegister | immediateExceptLoad | load | upperImmediate | jumpAndLink => rfl

theorem destOf_of_no_rd {w : Word} {f : Family} (h : f.format ∈ [some .S, some .B, none]) : f.destOf w = none := by
  cases f with
  | store | branch | systemCall => rfl
  | registerRegister | immediateExceptLoad | load | upperImmediate | jumpAndLink => simp [Family.format] at h

/-- The read ports carry the sources of the family, in order (R105). -/
theorem sourcesOf_readPorts {w : Word} {f : Family} (hf : familyOf (opcodeOf w) = some f) :
    f.sourcesOf w = [] ∨ f.sourcesOf w = [(readPorts w).1] ∨
      f.sourcesOf w = [(readPorts w).1, (readPorts w).2] := by
  unfold readPorts
  rw [hf]
  cases f with
  | upperImmediate | jumpAndLink => exact .inl rfl
  | immediateExceptLoad | load => exact .inr (.inl rfl)
  | registerRegister | store | branch | systemCall => exact .inr (.inr rfl)

/-- Settles O4: each family's function codes choose among kinds of one family, destination and sources. -/
theorem controlAgreesWithDecoder : Obligations.ControlAgreesWithDecoder := by
  unfold Obligations.ControlAgreesWithDecoder
  refine ⟨fun op f => ?_, fun w i h => ?_⟩
  · rw [familyOf_eq_some_iff]
    cases f <;> simp [families, Family.format, Family.opcode]
  · obtain ⟨f, hop, hi⟩ := decode_eq_ok_iff.mp h
    obtain ⟨hfam, hdest, hsrc⟩ := decodeFamily_control hi
    have hf := familyOf_eq_some_iff.mpr hop
    rw [hfam, hdest, hsrc]
    exact ⟨hf, destOf_of_format, destOf_of_no_rd, sourcesOf_readPorts hf⟩

/-! ### spec/opcode_table.json: words that match a row -/

/-- Whatever matches the row decodes to the row's mnemonic. -/
def RowSelects (row : List Char × Word × Word) : Prop :=
  ∀ w : Word, w &&& row.2.2 = row.2.1 → ∃ i, decode w = .ok i ∧ mnemonic i = row.1

/-- A slice the mask takes whole is that of the match. -/
theorem slice_of_match {w mask m : Word} {lo n : Nat} (h : w &&& mask = m)
    (hones : mask.extractLsb' lo n = BitVec.allOnes n) : w.extractLsb' lo n = m.extractLsb' lo n := by
  rw [← h, slice_and_of_ones hones]

/-- A row that tests the opcode: it is enough to know what the row's family selects. -/
theorem rowSelects_of_family {cs : List Char} {m mask : Word} {f : Family} (hop : opcodeOf m = f.opcode)
    (hones : mask.extractLsb' 0 7 = BitVec.allOnes 7)
    (h : ∀ w, w &&& mask = m → ∃ i, decodeFamily w f = some i ∧ mnemonic i = cs) : RowSelects (cs, m, mask) := by
  intro w hw
  obtain ⟨i, hi, hcs⟩ := h w hw
  exact ⟨i, decode_eq_ok_iff.mpr ⟨f, (slice_of_match hw hones).trans hop, hi⟩, hcs⟩

section
variable {cs : List Char} {m : Word}

/-- A row that tests opcode, funct3 and word[31:25]. -/
theorem rowSelects_of_codes {f : Family} (hop : opcodeOf m = f.opcode)
    (h : ∀ w, funct3Of w = funct3Of m → funct7Of w = funct7Of m → ∃ i, decodeFamily w f = some i ∧ mnemonic i = cs) :
    RowSelects (cs, m, 0xFE00707F) :=
  rowSelects_of_family hop (by decide) fun w hw => h w (slice_of_match hw (by decide)) (slice_of_match hw (by decide))

/-- A row that tests opcode and funct3. -/
theorem rowSelects_of_funct3 {f : Family} (hop : opcodeOf m = f.opcode)
    (h : ∀ w, funct3Of w = funct3Of m → ∃ i, decodeFamily w f = some i ∧ mnemonic i = cs) :
    RowSelects (cs, m, 0x0000707F) :=
  rowSelects_of_family hop (by decide) fun w hw => h w (slice_of_match hw (by decide))

/-- A row that tests the opcode alone. -/
theorem rowSelects_of_opcode (f : Family) (hop : opcodeOf m = f.opcode)
    (h : ∀ w, ∃ i, decodeFamily w f = some i ∧ mnemonic i = cs) : RowSelects (cs, m, 0x0000007F) :=
  rowSelects_of_family hop (by decide) fun w _ => h w

theorem rowSelects_regReg (hop : opcodeOf m = 0x33#7)
    (h : ∀ rd rs1 rs2, ∃ i, decodeRegReg (funct3Of m) (funct7Of m) rd rs1 rs2 = some i ∧ mnemonic i = cs) :
    RowSelects (cs, m, 0xFE00707F) :=
  rowSelects_of_codes (f := .registerRegister) hop fun w hf3 hf7 => by
    rw [decodeFamily, hf3, hf7]
    exact h ..

theorem rowSelects_shiftRight (hop : opcodeOf m = 0x13#7)
    (h : ∀ rd rs1 imm shamt, ∃ i, decodeRegImm (funct3Of m) (funct7Of m) rd rs1 imm shamt = some i ∧ mnemonic i = cs) :
    RowSelects (cs, m, 0xFE00707F) :=
  rowSelects_of_codes (f := .immediateExceptLoad) hop fun w hf3 hf7 => by
    rw [decodeFamily, hf3, hf7]
    exact h ..

theorem rowSelects_regImm (hop : opcodeOf m = 0x13#7)
    (h : ∀ f7 rd rs1 imm shamt, ∃ i, decodeRegImm (funct3Of m) f7 rd rs1 imm shamt = some i ∧ mnemonic i = cs) :
    RowSelects (cs, m, 0x0000707F) :=
  rowSelects_of_funct3 (f := .immediateExceptLoad) hop fun w hf3 => by
    rw [decodeFamily, hf3]
    exact h ..

theorem rowSelects_load (hop : opcodeOf m = 0x03#7)
    (h : ∀ rd rs1 imm, ∃ i, decodeLoad (funct3Of m) rd rs1 imm = some i ∧ mnemonic i = cs) :
    RowSelects (cs, m, 0x0000707F) :=
  rowSelects_of_funct3 (f := .load) hop fun w hf3 => by
    rw [decodeFamily, hf3]
    exact h ..

theorem rowSelects_store (hop : opcodeOf m = 0x23#7)
    (h : ∀ rs2 rs1 imm, ∃ i, decodeStore (funct3Of m) rs2 rs1 imm = some i ∧ mnemonic i = cs) :
    RowSelects (cs, m, 0x0000707F) :=
  rowSelects_of_funct3 (f := .store) hop fun w hf3 => by
    rw [decodeFamily, hf3]
    exact h ..

theorem rowSelects_branch (hop : opcodeOf m = 0x63#7)
    (h : ∀ rs1 rs2 off, ∃ i, decodeBranch (funct3Of m) rs1 rs2 off = some i ∧ mnemonic i = cs) :
    RowSelects (cs, m, 0x0000707F) :=
  rowSelects_of_funct3 (f := .branch) hop fun w hf3 => by
    rw [decodeFamily, hf3]
    exact h ..
end

theorem rowSelects_of_mem_table : ∀ row ∈ table, RowSelects row := by
  refine List.forall_mem_append.mpr ⟨List.forall_mem_append.mpr ⟨?regReg, ?regImm⟩, ?others⟩
  case regReg =>
    iterate 13 refine List.forall_mem_cons.mpr ⟨rowSelects_regReg rfl fun _ _ _ => ⟨_, rfl, rfl⟩, ?_⟩
    exact List.forall_mem_nil _
  case regImm =>
    iterate 4 refine List.forall_mem_cons.mpr ⟨rowSelects_regImm rfl fun _ _ _ _ _ => ⟨_, rfl, rfl⟩, ?_⟩
    iterate 2 refine List.forall_mem_cons.mpr ⟨rowSelects_shiftRight rfl fun _ _ _ _ => ⟨_, rfl, rfl⟩, ?_⟩
    iterate 2 refine List.forall_mem_cons.mpr ⟨rowSelects_regImm rfl fun _ _ _ _ _ => ⟨_, rfl, rfl⟩, ?_⟩
    exact List.forall_mem_nil _
  case others =>
    iterate 3 refine List.forall_mem_cons.mpr ⟨rowSelects_load rfl fun _ _ _ => ⟨_, rfl, rfl⟩, ?_⟩
    iterate 3 refine List.forall_mem_cons.mpr ⟨rowSelects_store rfl fun _ _ _ => ⟨_, rfl, rfl⟩, ?_⟩
    iterate 2 refine List.forall_mem_cons.mpr ⟨rowSelects_branch rfl fun _ _ _ => ⟨_, rfl, rfl⟩, ?_⟩
    refine List.forall_mem_cons.mpr ⟨rowSelects_of_opcode .upperImmediate rfl fun _ => ⟨_, rfl, rfl⟩, ?_⟩
    refine List.forall_mem_cons.mpr ⟨rowSelects_of_opcode .jumpAndLink rfl fun _ => ⟨_, rfl, rfl⟩, ?_⟩
    refine List.forall_mem_cons.mpr ⟨rowSelects_of_opcode .systemCall rfl fun _ => ⟨_, rfl, rfl⟩, ?_⟩
    exact List.forall_mem_nil _

/-! ### The row of an instruction -/

/-- The bits of a word that make it this kind (R81 to R86). -/
def testedMask : Instr → Word
  | .add _ _ _ | .mul _ _ _ | .sub _ _ _ | .sll _ _ _ | .mulh _ _ _ | .slt _ _ _ | .xor _ _ _ => 0xFE00707F
  | .div _ _ _ | .srl _ _ _ | .sra _ _ _ | .or _ _ _ | .rem _ _ _ | .and _ _ _ => 0xFE00707F
  | .srli _ _ _ | .srai _ _ _ => 0xFE00707F
  | .addi _ _ _ | .slli _ _ _ | .slti _ _ _ | .xori _ _ _ | .ori _ _ _ | .andi _ _ _ => 0x0000707F
  | .lb _ _ _ | .lh _ _ _ | .lw _ _ _ | .sb _ _ _ | .sh _ _ _ | .sw _ _ _ | .beq _ _ _ | .bne _ _ _ => 0x0000707F
  | .lui _ _ | .jal _ _ | .ecall => 0x0000007F

theorem and_codes_congr {v w : Word} (hop : opcodeOf v = opcodeOf w) (hf3 : funct3Of v = funct3Of w)
    (hf7 : funct7Of v = funct7Of w) : v &&& 0xFE00707F = w &&& 0xFE00707F := by
  apply eq_of_slices
  · rwa [slice_and_of_ones (by decide), slice_and_of_ones (by decide)]
  · rw [slice_and_of_zero (by decide), slice_and_of_zero (by decide)]
  · rwa [slice_and_of_ones (by decide), slice_and_of_ones (by decide)]
  · rw [slice_and_of_zero (by decide), slice_and_of_zero (by decide)]
  · rw [slice_and_of_zero (by decide), slice_and_of_zero (by decide)]
  · rwa [slice_and_of_ones (by decide), slice_and_of_ones (by decide)]

theorem and_funct3_congr {v w : Word} (hop : opcodeOf v = opcodeOf w) (hf3 : funct3Of v = funct3Of w) :
    v &&& 0x0000707F = w &&& 0x0000707F := by
  apply eq_of_slices
  · rwa [slice_and_of_ones (by decide), slice_and_of_ones (by decide)]
  · rw [slice_and_of_zero (by decide), slice_and_of_zero (by decide)]
  · rwa [slice_and_of_ones (by decide), slice_and_of_ones (by decide)]
  all_goals rw [slice_and_of_zero (by decide), slice_and_of_zero (by decide)]

theorem and_opcode_congr {v w : Word} (hop : opcodeOf v = opcodeOf w) : v &&& 0x0000007F = w &&& 0x0000007F := by
  apply eq_of_slices
  · rwa [slice_and_of_ones (by decide), slice_and_of_ones (by decide)]
  all_goals rw [slice_and_of_zero (by decide), slice_and_of_zero (by decide)]

/-! The tested bits of an encoded instruction do not depend on its operands. -/

section
variable (f7 op : BitVec 7) (f3 : BitVec 3) (rd rs1 rs2 : RegIdx) (imm : BitVec 12)

theorem encR_and_codes : encR f7 rs2 rs1 f3 rd op &&& 0xFE00707F = encR f7 0 0 f3 0 op &&& 0xFE00707F :=
  and_codes_congr (by simp) (by simp) (by simp)

theorem encI_shift_and_codes (shamt : BitVec 5) :
    encI (f7 ++ shamt) rs1 f3 rd op &&& 0xFE00707F = encI (f7 ++ 0#5) 0 f3 0 op &&& 0xFE00707F :=
  and_codes_congr (by simp) (by simp) (by simp)

theorem encI_and_funct3 : encI imm rs1 f3 rd op &&& 0x0000707F = encI 0 0 f3 0 op &&& 0x0000707F :=
  and_funct3_congr (by simp) (by simp)

theorem encS_and_funct3 : encS imm rs2 rs1 f3 op &&& 0x0000707F = encS 0 0 0 f3 op &&& 0x0000707F :=
  and_funct3_congr (by simp) (by simp)

theorem encB_and_funct3 (off : BitVec 13) :
    encB off rs2 rs1 f3 op &&& 0x0000707F = encB 0 0 0 f3 op &&& 0x0000707F :=
  and_funct3_congr (by simp) (by simp)

theorem encU_and_opcode (imm20 : BitVec 20) : encU imm20 rd op &&& 0x0000007F = encU 0 0 op &&& 0x0000007F :=
  and_opcode_congr (by simp)

theorem encJ_and_opcode (off : BitVec 21) : encJ off rd op &&& 0x0000007F = encJ 0 0 op &&& 0x0000007F :=
  and_opcode_congr (by simp)
end

/-- The tested bits of an encoded instruction are the match of its row. -/
theorem row_mem_table (i : Instr) : (mnemonic i, encode i &&& testedMask i, testedMask i) ∈ table := by
  cases i with
  | add | mul | sub | sll | mulh | slt | xor | div | srl | sra | or | rem | and =>
    rw [testedMask, encode, encR_and_codes]
    exact of_decide_eq_true rfl
  | srli | srai =>
    rw [testedMask, encode, encI_shift_and_codes]
    exact of_decide_eq_true rfl
  | addi | slli | slti | xori | ori | andi | lb | lh | lw =>
    rw [testedMask, encode, encI_and_funct3]
    exact of_decide_eq_true rfl
  | sb | sh | sw =>
    rw [testedMask, encode, encS_and_funct3]
    exact of_decide_eq_true rfl
  | beq | bne =>
    rw [testedMask, encode, encB_and_funct3]
    exact of_decide_eq_true rfl
  | lui =>
    rw [testedMask, encode, encU_and_opcode]
    exact of_decide_eq_true rfl
  | jal =>
    rw [testedMask, encode, encJ_and_opcode]
    exact of_decide_eq_true rfl
  | ecall => decide

/-- No ignored bit is tested (R87). -/
theorem ignored_not_tested (i : Instr) : ~~~(ignoredMask i) &&& testedMask i = testedMask i := by
  have hnone (m : Word) : ~~~(0 : Word) &&& m = m := BitVec.allOnes_and
  cases i with
  | slli => exact (by decide : ~~~(0xFE000000 : Word) &&& 0x0000707F = 0x0000707F)
  | ecall => decide
  | _ => exact hnone _

/-- A valid word matches a row of its own mnemonic. -/
theorem matches_row_of_decode {w : Word} {i : Instr} (h : decode w = .ok i) :
    ∃ row ∈ table, row.1 = mnemonic i ∧ w &&& row.2.2 = row.2.1 := by
  refine ⟨_, row_mem_table i, rfl, ?_⟩
  obtain ⟨-, henc⟩ := encodes_of_decode h
  rw [henc, BitVec.and_assoc, ignored_not_tested]

/-- The mnemonics of the table are distinct. -/
theorem row_eq_of_mnemonic : ∀ row ∈ table, ∀ row' ∈ table, row.1 = row'.1 → row = row' := by
  decide

/-- Settles O3: a word that matches a row decodes to the row's mnemonic, and a valid word matches the one row of its own. -/
theorem decodeMatchesTable : Obligations.DecodeMatchesTable := by
  unfold Obligations.DecodeMatchesTable
  refine ⟨fun w row hrow => ⟨?_, rowSelects_of_mem_table row hrow w⟩, fun w => ⟨?_, fun hnone => ?_⟩⟩
  · rintro ⟨i, hi, hmn⟩
    obtain ⟨row', hrow', hmn', hw⟩ := matches_row_of_decode hi
    rwa [row_eq_of_mnemonic row hrow row' hrow' (hmn.symm.trans hmn'.symm)]
  · rintro ⟨r, hr⟩ row hrow hw
    obtain ⟨i, hi, -⟩ := rowSelects_of_mem_table row hrow w hw
    rw [hr] at hi
    cases hi
  · cases hd : decode w with
    | error r => exact ⟨r, rfl⟩
    | ok i =>
      obtain ⟨row, hrow, -, hw⟩ := matches_row_of_decode hd
      exact absurd hw (hnone row hrow)

end Sys2Proof
end

section
/-! PROOFS. What an instruction does, said once for all 32: it takes the condition of `conditionOf`, or it commits a result, a
memory, a next pc and a text (R25, R280, R289). -/

namespace Sys2Proof.Machine

open Claim

/-! ### The branches (R251, R252) -/

theorem takenBne_of_ne {a b : Word} (h : a ≠ b) : takenBne a b = true := bne_iff_ne.mpr h
theorem takenBne_of_eq {a b : Word} (h : a = b) : takenBne a b = false := bne_eq_false_iff_eq.mpr h

theorem exec_bne (rs1 rs2 : RegIdx) (off : BitVec 13) (s : State) :
    exec (.bne rs1 rs2 off) s =
      .next (s.setPc (branchNextPc (takenBne (s.reg rs1) (s.reg rs2)) s.pc off)) := rfl

/-- Settles O29: the comparison decides which of the two sums is the next pc, and nothing but the pc is written. -/
theorem bneBranchesWhenDifferent : Obligations.BneBranchesWhenDifferent := by
  unfold Obligations.BneBranchesWhenDifferent
  refine ⟨selectsB fun _ _ _ => rfl, fun rs1 rs2 off s => ⟨fun hne => ?_, fun heq => ?_⟩⟩
  · rw [exec_bne, takenBne_of_ne hne, branchNextPc_taken]; rfl
  · rw [exec_bne, takenBne_of_eq heq, branchNextPc_untaken]; rfl

theorem exec_beq_eq_pcAfter (rs1 rs2 : RegIdx) (off : BitVec 13) (s : State) :
    exec (.beq rs1 rs2 off) s = .next { s with pc := pcAfter (.beq rs1 rs2 off) s } := by
  have hpc : pcAfter (.beq rs1 rs2 off) s =
    if s.reg rs1 = s.reg rs2 then to32 (u s.pc + sg off) else to32 (u s.pc + 4) := rfl
  rw [hpc]
  by_cases heq : s.reg rs1 = s.reg rs2
  · rw [if_pos heq]
    exact (beqBranchesWhenEqual.2 rs1 rs2 off s).1 heq
  · rw [if_neg heq]
    exact (beqBranchesWhenEqual.2 rs1 rs2 off s).2 heq

theorem exec_bne_eq_pcAfter (rs1 rs2 : RegIdx) (off : BitVec 13) (s : State) :
    exec (.bne rs1 rs2 off) s = .next { s with pc := pcAfter (.bne rs1 rs2 off) s } := by
  have hpc : pcAfter (.bne rs1 rs2 off) s =
    if s.reg rs1 = s.reg rs2 then to32 (u s.pc + 4) else to32 (u s.pc + sg off) := rfl
  rw [hpc]
  by_cases heq : s.reg rs1 = s.reg rs2
  · rw [if_pos heq]
    exact (bneBranchesWhenDifferent.2 rs1 rs2 off s).2 heq
  · rw [if_neg heq]
    exact (bneBranchesWhenDifferent.2 rs1 rs2 off s).1 heq

/-! ### The parts of a commit -/

/-- The value of a defined ALU operation. -/
def aluValue (op : AluOp) (a b : Word) : Word := (alu op a b).getD 0

/-- The word of a read that is accepted, zero-extended (R44). -/
def loaded (w : Width) (a : Word) (s : State) : Word := BitVec.ofNat 32 (leValue (s.mem.readList a.toNat w.bytes))

/-- The memory after a write that is accepted (R45). -/
def stored (w : Width) (a v : Word) (s : State) : Memory := s.mem.writeList a.toNat (leBytes w.bytes v)

/-- The value a committing instruction puts in its destination register; 0 for a kind without one. -/
def resultOf (i : Instr) (s : State) : Word :=
  match i with
  | .add _ rs1 rs2 => aluValue .add (s.reg rs1) (s.reg rs2)
  | .mul _ rs1 rs2 => aluValue .mul (s.reg rs1) (s.reg rs2)
  | .sub _ rs1 rs2 => aluValue .sub (s.reg rs1) (s.reg rs2)
  | .sll _ rs1 rs2 => shifter .sll (s.reg rs1) (shiftAmount (s.reg rs2))
  | .mulh _ rs1 rs2 => aluValue .mulh (s.reg rs1) (s.reg rs2)
  | .slt _ rs1 rs2 => aluValue .slt (s.reg rs1) (s.reg rs2)
  | .xor _ rs1 rs2 => aluValue .xor (s.reg rs1) (s.reg rs2)
  | .div _ rs1 rs2 => aluValue .div (s.reg rs1) (s.reg rs2)
  | .srl _ rs1 rs2 => shifter .srl (s.reg rs1) (shiftAmount (s.reg rs2))
  | .sra _ rs1 rs2 => shifter .sra (s.reg rs1) (shiftAmount (s.reg rs2))
  | .or _ rs1 rs2 => aluValue .or (s.reg rs1) (s.reg rs2)
  | .rem _ rs1 rs2 => aluValue .rem (s.reg rs1) (s.reg rs2)
  | .and _ rs1 rs2 => aluValue .and (s.reg rs1) (s.reg rs2)
  | .addi _ rs1 imm => aluValue .add (s.reg rs1) (immI imm)
  | .slli _ rs1 shamt => shifter .sll (s.reg rs1) shamt
  | .slti _ rs1 imm => aluValue .slt (s.reg rs1) (immI imm)
  | .xori _ rs1 imm => aluValue .xor (s.reg rs1) (immI imm)
  | .srli _ rs1 shamt => shifter .srl (s.reg rs1) shamt
  | .srai _ rs1 shamt => shifter .sra (s.reg rs1) shamt
  | .ori _ rs1 imm => aluValue .or (s.reg rs1) (immI imm)
  | .andi _ rs1 imm => aluValue .and (s.reg rs1) (immI imm)
  | .lb _ rs1 imm => sext 8 (loaded .byte (loadAddress rs1 imm s) s)
  | .lh _ rs1 imm => sext 16 (loaded .half (loadAddress rs1 imm s) s)
  | .lw _ rs1 imm => loaded .word (loadAddress rs1 imm s) s
  | .lui _ imm20 => upper imm20
  | .jal _ _ => to32 (u s.pc + 4)
  | .sb _ _ _ | .sh _ _ _ | .sw _ _ _ | .beq _ _ _ | .bne _ _ _ | .ecall => 0

/-- The registers after a commit. -/
def regsAfter (i : Instr) (s : State) : Vector Word 32 :=
  match destReg i with
  | some rd => s.regs.set rd (resultOf i s)
  | none => s.regs

/-- The memory after a commit: only stores write it. -/
def memAfter (i : Instr) (s : State) : Memory :=
  match i with
  | .sb rs2 rs1 imm => stored .byte (storeAddress rs1 imm s) (s.reg rs2) s
  | .sh rs2 rs1 imm => stored .half (storeAddress rs1 imm s) (s.reg rs2) s
  | .sw rs2 rs1 imm => stored .word (storeAddress rs1 imm s) (s.reg rs2) s
  | _ => s.mem

/-- The text a commit appends: only ecall prints without halting. -/
def textOf (i : Instr) (s : State) : List Byte :=
  match i with
  | .ecall => decInt (s.reg argumentReg).toInt
  | _ => []

/-- The state an instruction leaves when it meets no condition. -/
def committed (i : Instr) (s : State) : State :=
  { s with regs := regsAfter i s, pc := pcAfter i s, mem := memAfter i s, out := s.out ++ textOf i s }

/-- A commit of the machine is one of these when the instruction writes a register and nothing else. -/
theorem commit_eq_committed {i : Instr} {s : State} {rd : RegIdx} {v : Word} (hd : destReg i = some rd)
    (hv : resultOf i s = v) (hpc : pcAfter i s = to32 (u s.pc + 4)) (hm : memAfter i s = s.mem)
    (ht : textOf i s = []) : commit rd v s = .next (committed i s) := by
  rw [commit_eq, setReg_advance_eq_put]
  simp only [committed, regsAfter, hd, hv, hpc, hm, ht, List.append_nil, put]

theorem committed_of_silent {i : Instr} {s : State} (ht : textOf i s = []) :
    committed i s = { s with regs := regsAfter i s, pc := pcAfter i s, mem := memAfter i s } := by
  rw [committed, ht, List.append_nil]

/-! ### The conditions of a data access -/

theorem readCondition_eq_some {w : Width} {a : Word} {s : State} {c : Condition} (h : readCondition w a s = some c) :
    ∃ kind, accessReject s.params s.params.alignCheckEn a w = some kind ∧ c = .fail (.badRead a kind) := by
  obtain ⟨kind, hk, rfl⟩ := Option.map_eq_some_iff.mp h
  exact ⟨kind, hk, rfl⟩

theorem writeCondition_eq_some {w : Width} {a : Word} {s : State} {c : Condition} (h : writeCondition w a s = some c) :
    ∃ kind, accessReject s.params s.params.alignCheckEn a w = some kind ∧ c = .fail (.badWrite a kind) := by
  obtain ⟨kind, hk, rfl⟩ := Option.map_eq_some_iff.mp h
  exact ⟨kind, hk, rfl⟩

theorem readCondition_eq_none {w : Width} {a : Word} {s : State} :
    readCondition w a s = none ↔ accessReject s.params s.params.alignCheckEn a w = none := Option.map_eq_none_iff

theorem writeCondition_eq_none {w : Width} {a : Word} {s : State} :
    writeCondition w a s = none ↔ accessReject s.params s.params.alignCheckEn a w = none := Option.map_eq_none_iff

/-! ### The shared operations, by whether the condition holds -/

section
variable {op : AluOp} {w : Width} {ext : Word → Word} {rd : RegIdx} {a b v : Word} {s : State} {c : Condition}

theorem execAlu_of_undefined (hop : op = .div ∨ op = .rem) (h : divUndefined a b = true) :
    execAlu op rd a b s = .next (raise (.fail .arithUndefined) s) := by
  simp only [execAlu, (alu_eq_none op a b).mpr ⟨hop, h⟩, halt_eq]

theorem execAlu_of_defined (h : divUndefined a b = false) : execAlu op rd a b s = commit rd (aluValue op a b) s := by
  rcases execAlu_cases op rd a b s with ⟨v, hv, he⟩ | ⟨hn, -⟩
  · rw [he, aluValue, hv, commit_eq, Option.getD_some]
  · rw [((alu_eq_none op a b).mp hn).2] at h
    cases h

theorem loadReg_of_condition (h : readCondition w a s = some c) : loadReg w ext rd a s = .next (raise c s) := by
  obtain ⟨kind, hk, rfl⟩ := readCondition_eq_some h
  simp only [loadReg, memRead, hk, halt_eq]

theorem loadReg_of_no_condition (h : readCondition w a s = none) :
    loadReg w ext rd a s = commit rd (ext (loaded w a s)) s := by
  simp only [loadReg, memRead, readCondition_eq_none.mp h, loaded]

theorem storeReg_of_condition (h : writeCondition w a s = some c) : storeReg w a v s = .next (raise c s) := by
  obtain ⟨kind, hk, rfl⟩ := writeCondition_eq_some h
  simp only [storeReg, memWrite, hk, halt_eq]

theorem storeReg_of_no_condition (h : writeCondition w a s = none) :
    storeReg w a v s = .next { s with mem := stored w a v s, pc := to32 (u s.pc + 4) } := by
  rw [to32_pc_add_four]
  simp only [storeReg, memWrite, writeCondition_eq_none.mp h]
  rfl
end

/-! ### The instruction, by whether its condition holds -/

/-- The condition of div and rem holds exactly when the division is undefined (R287). -/
theorem divCondition_eq_some {b : Bool} {c : Condition}
    (h : (if b then some (Condition.fail .arithUndefined) else none) = some c) : b = true ∧ c = .fail .arithUndefined := by
  cases b with
  | true => exact ⟨rfl, (Option.some.inj h).symm⟩
  | false => cases h

theorem divCondition_eq_none {b : Bool}
    (h : (if b then some (Condition.fail .arithUndefined) else none) = none) : b = false := by
  cases b with
  | true => cases h
  | false => rfl

/-- The condition holds: its diagnostic and status, and nothing else (R289). -/
theorem exec_of_condition {i : Instr} {s : State} {c : Condition} (h : conditionOf i s = some c) :
    exec i s = .next (raise c s) := by
  cases i with
  | div rd rs1 rs2 =>
    obtain ⟨hu, rfl⟩ := divCondition_eq_some h
    exact execAlu_of_undefined (.inl rfl) hu
  | rem rd rs1 rs2 =>
    obtain ⟨hu, rfl⟩ := divCondition_eq_some h
    exact execAlu_of_undefined (.inr rfl) hu
  | lb | lh | lw => exact loadReg_of_condition h
  | sb | sh | sw => exact storeReg_of_condition h
  | ecall =>
    rw [conditionOf] at h
    rcases execEcall_cases s with ⟨h1, -⟩ | ⟨h10, he⟩ | ⟨h1, h10, he⟩
    · rw [if_pos h1] at h
      cases h
    · rw [h10, if_neg (by decide), if_pos rfl] at h
      cases h
      exact he
    · rw [if_neg h1, if_neg h10] at h
      cases h
      exact he
  | _ => cases h

/-- No condition holds: the commit (R25, R293). -/
theorem exec_of_no_condition {i : Instr} {s : State} (h : conditionOf i s = none) :
    exec i s = .next (committed i s) := by
  cases i with
  | div | rem =>
    exact (execAlu_of_defined (divCondition_eq_none h)).trans (commit_eq_committed rfl rfl rfl rfl rfl)
  | lb | lh | lw => exact (loadReg_of_no_condition h).trans (commit_eq_committed rfl rfl rfl rfl rfl)
  | sb | sh | sw =>
    rw [committed_of_silent rfl]
    exact storeReg_of_no_condition h
  | beq rs1 rs2 off =>
    rw [exec_beq_eq_pcAfter, committed_of_silent rfl]
    rfl
  | bne rs1 rs2 off =>
    rw [exec_bne_eq_pcAfter, committed_of_silent rfl]
    rfl
  | jal rd off =>
    rw [jalLinksAndJumps.2, committed_of_silent rfl]
    rfl
  | ecall =>
    rw [conditionOf] at h
    rcases execEcall_cases s with ⟨-, he⟩ | ⟨h10, -⟩ | ⟨h1, h10, -⟩
    · refine he.trans ?_
      rw [printInteger, State.advance, State.emit_pc, ← to32_pc_add_four]
      rfl
    · rw [h10, if_neg (by decide), if_pos rfl] at h
      cases h
    · rw [if_neg h1, if_neg h10] at h
      cases h
  | _ => exact commit_eq_committed rfl rfl rfl rfl rfl

/-- Every instruction answers a next state. -/
theorem exec_cases (i : Instr) (s : State) :
    (∃ c, conditionOf i s = some c ∧ exec i s = .next (raise c s)) ∨
    (conditionOf i s = none ∧ exec i s = .next (committed i s)) := by
  cases h : conditionOf i s with
  | some c => exact .inl ⟨c, rfl, exec_of_condition h⟩
  | none => exact .inr ⟨rfl, exec_of_no_condition h⟩

end Sys2Proof.Machine
end

section
/-! PROOFS. What a step does, said once, and the rules of the whole machine that follow: every step answers, output only grows,
a halt is precise and final, the invariant is kept. -/

namespace Sys2Proof.Machine

open Claim

/-! ### The fields of a committed state -/

section
variable (i : Instr) (s : State)

@[simp] theorem committed_regs : (committed i s).regs = regsAfter i s := rfl
@[simp] theorem committed_out : (committed i s).out = s.out ++ textOf i s := rfl
end

/-- A commit writes memory only by a store that the checks accept. -/
theorem memAfter_cases {i : Instr} {s : State} (h : conditionOf i s = none) :
    memAfter i s = s.mem ∨ ∃ a w v, accessReject s.params s.params.alignCheckEn a w = none ∧
      memAfter i s = stored w a v s := by
  cases i with
  | sb | sh | sw => exact .inr ⟨_, _, _, writeCondition_eq_none.mp h, rfl⟩
  | _ => exact .inl rfl

theorem ascii_textOf (i : Instr) (s : State) : Ascii (textOf i s) := by
  cases i with
  | ecall => exact ascii_decInt _
  | _ => exact ascii_nil

/-! ### Transactions and the step -/

/-- An EXECUTE transaction: dropped after a halt, a condition taken, or an instruction committed. -/
theorem executeWord_answers (w : Word) (s : State) :
    (s.status ≠ .running ∧ executeWord w s = .next s) ∨
    (s.status = .running ∧ ∃ c, executeWord w s = .next (raise c s)) ∨
    (s.status = .running ∧ ∃ i, conditionOf i s = none ∧ executeWord w s = .next (committed i s)) := by
  rcases executeWord_cases w s with h | ⟨hrun, -, he⟩ | ⟨i, hrun, -, he⟩
  · exact .inl h
  · exact .inr (.inl ⟨hrun, _, he⟩)
  · rw [he]
    rcases exec_cases i s with ⟨c, -, hx⟩ | ⟨hn, hx⟩
    · exact .inr (.inl ⟨hrun, c, hx⟩)
    · exact .inr (.inr ⟨hrun, i, hn, hx⟩)

theorem executeWord_of_halted {w : Word} {s : State} (hhalt : s.status ≠ .running) : executeWord w s = .next s := by
  rcases executeWord_cases w s with ⟨-, he⟩ | ⟨hrun, -⟩ | ⟨i, hrun, -⟩
  · exact he
  · exact absurd hrun hhalt
  · exact absurd hrun hhalt

/-- The state a step's transaction runs in: the oldest offered transaction, if any, no longer waits (log 9). -/
def State.dequeued (s : State) : State := { s with commands := s.commands.tail }

section
variable (s : State)

theorem State.dequeued_of_cons {c : Command} {rest : List Command} (h : s.commands = c :: rest) :
    s.dequeued = { s with commands := rest } := by
  rw [State.dequeued, h, List.tail_cons]

theorem State.dequeued_of_nil (h : s.commands = []) : s.dequeued = s := by
  rw [State.dequeued, h, List.tail_nil, ← h]
end

/-- What a step can do: print a line, nothing after a halt, take a condition, or commit an instruction. -/
theorem step_cases (s : State) :
    (∃ w, step s = .next (s.dequeued.emit (render w))) ∨
    (s.status ≠ .running ∧ step s = .next s.dequeued) ∨
    (s.status = .running ∧ ∃ c, step s = .next (raise c s.dequeued)) ∨
    (s.status = .running ∧ ∃ i, conditionOf i s.dequeued = none ∧ step s = .next (committed i s.dequeued)) := by
  have hexec (w : Word) (h : step s = executeWord w s.dequeued) := h ▸ executeWord_answers w s.dequeued
  rcases turn_cases s with ⟨w, rest, hc, ht⟩ | ⟨w, rest, hc, ht⟩ | ⟨hc, ht⟩
  · exact .inl ⟨w, by rw [step, ht, s.dequeued_of_cons hc]⟩
  · exact .inr (hexec w (by rw [step, ht, s.dequeued_of_cons hc]))
  · rcases driverTurn_cases s with ⟨hs, hd⟩ | ⟨hs, kind, hd⟩ | ⟨w, -, -, hd⟩
    · exact .inr (.inl ⟨hs, by rw [step, ht, hd, s.dequeued_of_nil hc]⟩)
    · exact .inr (.inr (.inl ⟨hs, _, by rw [step, ht, hd, s.dequeued_of_nil hc]⟩))
    · exact .inr (hexec w (by rw [step, ht, hd, s.dequeued_of_nil hc]))

/-! ### The invariant -/

section
variable {s : State}

theorem State.Inv.dequeued (h : s.Inv) : s.dequeued.Inv := ⟨h.params_wf, h.mem_wf, h.mem_bounded, h.out_ascii⟩

theorem State.Inv.emit (h : s.Inv) {text : List Byte} (ht : Ascii text) : (s.emit text).Inv :=
  ⟨h.params_wf, h.mem_wf, h.mem_bounded, Ascii.append h.out_ascii ht⟩

theorem State.Inv.raise (h : s.Inv) (c : Condition) : (raise c s).Inv :=
  ⟨h.params_wf, h.mem_wf, h.mem_bounded, Ascii.append h.out_ascii (ascii_diagnostic c)⟩

/-- An accepted store lists only addresses below capacity (R35, R42). -/
theorem State.Inv.stored_bounded (h : s.Inv) {a v : Word} {w : Width}
    (hok : accessReject s.params s.params.alignCheckEn a w = none) :
    ∀ c ∈ stored w a v s, c.1 < s.params.memorySpace := by
  intro c hc
  obtain ⟨hbound, -⟩ := (accessReject_eq_none ..).mp hok
  rcases Memory.mem_writeList _ _ _ c hc with ⟨-, hlt⟩ | hold
  · rw [length_leBytes] at hlt
    omega
  · exact h.mem_bounded c hold

theorem State.Inv.committed (h : s.Inv) {i : Instr} (hn : conditionOf i s = none) : (committed i s).Inv := by
  have hmem : (memAfter i s).wf ∧ ∀ c ∈ memAfter i s, c.1 < s.params.memorySpace := by
    rcases memAfter_cases hn with hm | ⟨a, w, v, hok, hm⟩
    · rw [hm]
      exact ⟨h.mem_wf, h.mem_bounded⟩
    · rw [hm]
      exact ⟨Memory.writeList_wf _ _ _ h.mem_wf, h.stored_bounded hok⟩
  exact ⟨h.params_wf, hmem.1, hmem.2, Ascii.append h.out_ascii (ascii_textOf i s)⟩
end

/-- Settles O58: each of the four things a step can do keeps the invariant, and none writes the parameters. -/
theorem stepKeepsInv : Obligations.StepKeepsInv := by
  unfold Obligations.StepKeepsInv
  intro s t hinv hstep
  have hd := hinv.dequeued
  rcases step_cases s with ⟨w, hs⟩ | ⟨-, hs⟩ | ⟨-, c, hs⟩ | ⟨-, i, hn, hs⟩ <;> cases hs.symm.trans hstep
  · exact ⟨hd.emit (ascii_render w), rfl⟩
  · exact ⟨hd, rfl⟩
  · exact ⟨hd.raise c, rfl⟩
  · exact ⟨hd.committed hn, rfl⟩

/-- Settles O59: the fields of the initial state are the arguments, and its empty output and legal memory meet the
invariant. -/
theorem initialisationLoads : Obligations.InitialisationLoads := by
  unfold Obligations.InitialisationLoads
  have hinit (p : Params) (r : Vector Word 32) (pc : Word) (m : Memory) (hp : p.wf) (hm : m.wf)
      (hb : ∀ c ∈ m, c.1 < p.memorySpace) : (State.initialise p r pc m).Inv := ⟨hp, hm, hb, ascii_nil⟩
  refine ⟨hinit _ _ _ _ (by decide) Memory.nil_wf (List.forall_mem_nil _), fun p r pc m => ⟨?_, hinit p r pc m⟩⟩
  exact ⟨rfl, rfl, rfl, rfl, rfl⟩

/-! ### Every step answers, and output only grows -/

/-- Settles O50: each of the four things a step can do is a next state. -/
theorem everyStepAnswers : Obligations.EveryStepAnswers := by
  unfold Obligations.EveryStepAnswers
  intro s
  rcases step_cases s with ⟨w, hs⟩ | ⟨-, hs⟩ | ⟨-, c, hs⟩ | ⟨-, i, -, hs⟩
  all_goals exact ⟨_, hs⟩

/-- Settles O56: a step appends a rendered line, nothing, a diagnostic or what ecall prints, all 7-bit. -/
theorem outputOnlyGrows : Obligations.OutputOnlyGrows := by
  unfold Obligations.OutputOnlyGrows
  intro s t hstep
  rcases step_cases s with ⟨w, hs⟩ | ⟨-, hs⟩ | ⟨-, c, hs⟩ | ⟨-, i, -, hs⟩ <;> cases hs.symm.trans hstep
  · exact ⟨_, rfl, ascii_render w⟩
  · exact ⟨[], (List.append_nil _).symm, ascii_nil⟩
  · exact ⟨_, rfl, ascii_diagnostic c⟩
  · exact ⟨_, rfl, ascii_textOf i _⟩

/-! ### Halting conditions -/

/-- Settles O37: the two cases of an instruction. -/
theorem haltsExactlyOnCondition : Obligations.HaltsExactlyOnCondition := by
  unfold Obligations.HaltsExactlyOnCondition
  exact fun i s => ⟨fun c hc => exec_of_condition hc, fun hn => ⟨_, exec_of_no_condition hn, rfl⟩⟩

/-- Settles O38: of the four things a step can do, only taking a condition leaves RUNNING. -/
theorem haltIsPrecise : Obligations.HaltIsPrecise := by
  unfold Obligations.HaltIsPrecise
  intro s t hrun hstep hhalt
  rcases step_cases s with ⟨w, hs⟩ | ⟨hne, -⟩ | ⟨-, c, hs⟩ | ⟨-, i, -, hs⟩
  · cases hs.symm.trans hstep
    exact absurd hrun hhalt
  · exact absurd hrun hne
  · cases hs.symm.trans hstep
    exact ⟨rfl, rfl, rfl, c, rfl, rfl⟩
  · cases hs.symm.trans hstep
    exact absurd hrun hhalt

/-- Settles O39: after a halt a step prints a line or does nothing, and an EXECUTE transaction is dropped. -/
theorem haltIsFinal : Obligations.HaltIsFinal := by
  unfold Obligations.HaltIsFinal
  intro s hhalt
  refine ⟨fun t hstep => ?_, fun w => executeWord_of_halted hhalt⟩
  rcases step_cases s with ⟨w, hs⟩ | ⟨-, hs⟩ | ⟨hrun, -⟩ | ⟨hrun, -⟩
  · cases hs.symm.trans hstep
    exact ⟨rfl, rfl, rfl, rfl⟩
  · cases hs.symm.trans hstep
    exact ⟨rfl, rfl, rfl, rfl⟩
  · exact absurd hrun hhalt
  · exact absurd hrun hhalt

/-- Settles O40: a commit goes where the rule says, and a taken condition and a printed line leave the pc. -/
theorem pcAdvancesByRule : Obligations.PcAdvancesByRule := by
  unfold Obligations.PcAdvancesByRule
  refine ⟨fun i s t hrun hexec => ?_, fun w s t ht => ?_⟩
  · rcases exec_cases i s with ⟨c, -, he⟩ | ⟨-, he⟩
    · cases he.symm.trans hexec
      exact ⟨fun h => absurd h (finalStatus_ne_running c), fun _ => rfl⟩
    · cases he.symm.trans hexec
      exact ⟨fun _ => rfl, fun h => absurd hrun h⟩
  · cases ht
    rfl

/-- Settles O36: an invalid word is judged before any register is read, and both transactions print one line for it. -/
theorem invalidWordHaltsOrPrints : Obligations.InvalidWordHaltsOrPrints := by
  unfold Obligations.InvalidWordHaltsOrPrints
  intro w r s hd
  refine ⟨fun hrun => ?_, ?_⟩
  · simp only [transact, executeWord, hrun, hd]
    rfl
  · simp only [transact, disassembleWord, render, hd]
    rfl

end Sys2Proof.Machine
end

section
/-! PROOFS. Frames (spec/10_state.md section 2): what each kind leaves unchanged, read off the parts of a commit; and that an
instruction depends on its source registers only (R23). -/

namespace Sys2Proof.Machine

open Claim

/-! ### Registers and memory after a commit -/

section
variable {i : Instr} {s : State} {rd q : RegIdx}

/-- A commit reads like the write of its result. -/
theorem committed_reg_of_dest (h : destReg i = some rd) :
    (committed i s).reg q = (s.setReg rd (resultOf i s)).reg q := by
  rw [State.reg, committed_regs, regsAfter, h]
  rfl

theorem committed_reg_dest (h : destReg i = some rd) : (committed i s).reg rd = resultOf i s := by
  rw [committed_reg_of_dest h, State.reg_setReg_self]

theorem committed_reg_of_ne_dest (h : destReg i = some rd) (hq : q ≠ rd) : (committed i s).reg q = s.reg q := by
  rw [committed_reg_of_dest h, State.reg_setReg_of_ne _ _ _ _ hq]

theorem committed_reg_of_no_dest (h : destReg i = none) : (committed i s).reg q = s.reg q := by
  rw [State.reg, committed_regs, regsAfter, h, State.reg]

theorem committed_keepsAllBut (hd : destReg i = some rd) (hm : memAfter i s = s.mem) :
    KeepsAllBut rd s (committed i s) :=
  ⟨fun _ hq => committed_reg_of_ne_dest hd hq, fun a => congrArg (Memory.read · a) hm, rfl, rfl⟩

theorem committed_keepsRegs (hd : destReg i = none) : KeepsRegs s (committed i s) :=
  ⟨fun _ => committed_reg_of_no_dest hd, rfl, rfl⟩

theorem committed_out_of_silent (h : textOf i s = []) : (committed i s).out = s.out := by
  rw [committed_out, h, List.append_nil]
end

/-- An accepted store leaves every byte outside it alone (R45). -/
theorem read_stored_outside (w : Width) (a v : Word) (s : State) {x : Nat} (h : x < a.toNat ∨ a.toNat + w.bytes ≤ x) :
    (stored w a v s).read x = s.mem.read x :=
  Memory.read_writeList_of_outside _ _ _ _ (by rwa [length_leBytes])

theorem raise_keepsAllBut (rd : RegIdx) (c : Condition) (s : State) : KeepsAllBut rd s (raise c s) :=
  ⟨fun _ _ => rfl, fun _ => rfl, rfl, rfl⟩

theorem raise_keepsRegs (c : Condition) (s : State) : KeepsRegs s (raise c s) := ⟨fun _ => rfl, rfl, rfl⟩

/-! ### The frames -/

/-- A kind whose commit writes rd and the pc and nothing else. -/
def WritesOnly (rd : RegIdx) (i : Instr) : Prop :=
  destReg i = some rd ∧ ∀ s, memAfter i s = s.mem ∧ textOf i s = []

section
variable (rd rs1 rs2 : RegIdx) (imm : BitVec 12) (shamt : BitVec 5)

theorem plainRegRegForms_writesOnly :
    ∀ i ∈ plainRegRegForms rd rs1 rs2, WritesOnly rd i ∧ ∀ s, conditionOf i s = none := by
  iterate 11 refine List.forall_mem_cons.mpr ⟨⟨⟨rfl, fun _ => ⟨rfl, rfl⟩⟩, fun _ => rfl⟩, ?_⟩
  exact List.forall_mem_nil _

theorem immForms_writesOnly : ∀ i ∈ immForms rd rs1 imm, WritesOnly rd i ∧ ∀ s, conditionOf i s = none := by
  iterate 5 refine List.forall_mem_cons.mpr ⟨⟨⟨rfl, fun _ => ⟨rfl, rfl⟩⟩, fun _ => rfl⟩, ?_⟩
  exact List.forall_mem_nil _

theorem shiftForms_writesOnly : ∀ i ∈ shiftForms rd rs1 shamt, WritesOnly rd i ∧ ∀ s, conditionOf i s = none := by
  iterate 3 refine List.forall_mem_cons.mpr ⟨⟨⟨rfl, fun _ => ⟨rfl, rfl⟩⟩, fun _ => rfl⟩, ?_⟩
  exact List.forall_mem_nil _

theorem loadForms_writesOnly : ∀ i ∈ loadForms rd rs1 imm, WritesOnly rd i := by
  iterate 3 refine List.forall_mem_cons.mpr ⟨⟨rfl, fun _ => ⟨rfl, rfl⟩⟩, ?_⟩
  exact List.forall_mem_nil _
end

/-- Settles O51: each of these kinds commits in every state, and its commit writes rd only. -/
theorem frameRegisterForms : Obligations.FrameRegisterForms := by
  unfold Obligations.FrameRegisterForms
  intro rd rs1 rs2 imm shamt imm20 i s t hi hexec
  have hkind : WritesOnly rd i ∧ ∀ s, conditionOf i s = none := by
    rcases hi with hi | hi | hi | rfl
    · exact plainRegRegForms_writesOnly _ _ _ i hi
    · exact immForms_writesOnly _ _ _ i hi
    · exact shiftForms_writesOnly _ _ _ i hi
    · exact ⟨⟨rfl, fun _ => ⟨rfl, rfl⟩⟩, fun _ => rfl⟩
  obtain ⟨⟨hd, hsilent⟩, hn⟩ := hkind
  obtain ⟨hm, ht⟩ := hsilent s
  cases (exec_of_no_condition (hn s)).symm.trans hexec
  exact ⟨committed_keepsAllBut hd hm, rfl, committed_out_of_silent ht⟩

/-- Settles O52: a taken condition keeps every register and prints, a commit writes rd only and prints nothing. -/
theorem frameHaltingRegisterForms : Obligations.FrameHaltingRegisterForms := by
  unfold Obligations.FrameHaltingRegisterForms
  intro rd rs1 rs2 imm i s t hi hexec
  have hkind : WritesOnly rd i := by
    rcases hi with rfl | rfl | hi
    · exact ⟨rfl, fun _ => ⟨rfl, rfl⟩⟩
    · exact ⟨rfl, fun _ => ⟨rfl, rfl⟩⟩
    · exact loadForms_writesOnly _ _ _ i hi
  obtain ⟨hd, hsilent⟩ := hkind
  obtain ⟨hm, ht⟩ := hsilent s
  rcases exec_cases i s with ⟨c, -, he⟩ | ⟨-, he⟩
  · cases he.symm.trans hexec
    exact ⟨raise_keepsAllBut rd c s, fun _ h => absurd h (finalStatus_ne_running c), fun _ _ => rfl⟩
  · cases he.symm.trans hexec
    exact ⟨committed_keepsAllBut hd hm, fun _ _ => committed_out_of_silent ht, fun hrun h => absurd hrun h⟩

/-- A store of n bytes commits no register and no text, and its memory is that of the store at its address. -/
theorem storeForms_commit (rs2 rs1 : RegIdx) (imm : BitVec 12) :
    ∀ p ∈ storeForms rs2 rs1 imm, ∃ w : Width, p.2 = w.bytes ∧ destReg p.1 = none ∧
      ∀ s, textOf p.1 s = [] ∧ memAfter p.1 s = stored w (storeAddress rs1 imm s) (s.reg rs2) s := by
  iterate 3 refine List.forall_mem_cons.mpr ⟨⟨_, rfl, rfl, fun _ => ⟨rfl, rfl⟩⟩, ?_⟩
  exact List.forall_mem_nil _

/-- Settles O53: a taken condition keeps memory whole, a commit changes the bytes of the store only. -/
theorem frameStores : Obligations.FrameStores := by
  unfold Obligations.FrameStores
  intro rs2 rs1 imm i n s t hi hexec
  obtain ⟨w, rfl, hd, hkind⟩ := storeForms_commit rs2 rs1 imm _ hi
  obtain ⟨ht, hm⟩ := hkind s
  rcases exec_cases i s with ⟨c, -, he⟩ | ⟨-, he⟩
  · cases he.symm.trans hexec
    exact ⟨raise_keepsRegs c s, fun _ _ => rfl, fun _ _ _ => rfl, fun _ h => absurd h (finalStatus_ne_running c)⟩
  · cases he.symm.trans hexec
    refine ⟨committed_keepsRegs hd, fun x hx => ?_, fun hrun h => absurd hrun h,
      fun _ _ => committed_out_of_silent ht⟩
    exact (congrArg (Memory.read · x) hm).trans (read_stored_outside w _ _ s hx)

/-- ecall meets no condition exactly under selector 1 (R271). -/
theorem conditionOf_ecall_eq_none {s : State} : conditionOf .ecall s = none ↔ s.reg 10 = 1 := by
  change (if s.reg 10 = 1 then none else if s.reg 10 = 10 then some Condition.exit
    else some (.fail (.unsupportedSyscall (s.reg 10)))) = none ↔ _
  split
  case isTrue h1 => exact iff_of_true rfl h1
  case isFalse h1 =>
    refine iff_of_false ?_ h1
    split <;> exact Option.some_ne_none _

/-- Settles O54: branches, jump and ecall write no memory, and no register but the link. -/
theorem frameControl : Obligations.FrameControl := by
  unfold Obligations.FrameControl
  intro rd rs1 rs2 off joff s t
  refine ⟨?_, fun hexec => ?_, fun hexec => ?_⟩
  · rintro (hexec | hexec)
    all_goals
      cases (exec_of_no_condition rfl).symm.trans hexec
      exact ⟨committed_keepsRegs rfl, fun _ => rfl, rfl, committed_out_of_silent rfl⟩
  · cases (exec_of_no_condition rfl).symm.trans hexec
    exact ⟨committed_keepsAllBut rfl rfl, rfl, committed_out_of_silent rfl⟩
  · rcases exec_cases .ecall s with ⟨c, hc, he⟩ | ⟨hn, he⟩
    · cases he.symm.trans hexec
      refine ⟨raise_keepsRegs c s, fun _ => rfl, fun h1 => ?_, fun _ => rfl⟩
      rw [conditionOf_ecall_eq_none.mpr h1] at hc
      cases hc
    · cases he.symm.trans hexec
      exact ⟨committed_keepsRegs rfl, fun _ => rfl, fun _ => rfl,
        fun h1 => absurd (conditionOf_ecall_eq_none.mp hn) h1⟩

end Sys2Proof.Machine
end

section
/-! PROOFS. What an instruction's outcome depends on: its source registers, the pc, the parameters and the bytes it loads (R23,
R106); and that the meanings follow the executing unit and the data access of the control outputs. -/

namespace Sys2Proof.Machine

open Claim

section
variable {i : Instr} {s s' : State}

/-- The condition depends on the source registers and the parameters. -/
theorem conditionOf_congr (hsrc : ∀ r ∈ sourceRegs i, s.reg r = s'.reg r) (hp : s.params = s'.params) :
    conditionOf i s = conditionOf i s' := by
  cases i with
  | div _ rs1 rs2 | rem _ rs1 rs2 =>
    have h1 : s.reg rs1 = s'.reg rs1 := hsrc _ (by simp [sourceRegs])
    have h2 : s.reg rs2 = s'.reg rs2 := hsrc _ (by simp [sourceRegs])
    simp only [conditionOf, h1, h2]
  | lb _ rs1 | lh _ rs1 | lw _ rs1 =>
    have h1 : s.reg rs1 = s'.reg rs1 := hsrc _ (by simp [sourceRegs])
    simp only [conditionOf, readCondition, loadAddress, h1, hp]
  | sb _ rs1 | sh _ rs1 | sw _ rs1 =>
    have h1 : s.reg rs1 = s'.reg rs1 := hsrc _ (by simp [sourceRegs])
    simp only [conditionOf, writeCondition, storeAddress, h1, hp]
  | ecall =>
    have h1 : s.reg selectorReg = s'.reg selectorReg := hsrc _ (by simp [sourceRegs])
    simp only [conditionOf, h1]
  | _ => rfl

/-- The result depends on the source registers, the pc and the bytes loaded. -/
theorem resultOf_congr (hsrc : ∀ r ∈ sourceRegs i, s.reg r = s'.reg r) (hpc : s.pc = s'.pc)
    (hload : ∀ w a, dataAccess i = some (.read w) → dataAddress i s = some a → loaded w a s = loaded w a s') :
    resultOf i s = resultOf i s' := by
  cases i with
  | add _ rs1 rs2 | mul _ rs1 rs2 | sub _ rs1 rs2 | sll _ rs1 rs2 | mulh _ rs1 rs2 | slt _ rs1 rs2 | xor _ rs1 rs2
  | div _ rs1 rs2 | srl _ rs1 rs2 | sra _ rs1 rs2 | or _ rs1 rs2 | rem _ rs1 rs2 | and _ rs1 rs2 =>
    have h1 : s.reg rs1 = s'.reg rs1 := hsrc _ (by simp [sourceRegs])
    have h2 : s.reg rs2 = s'.reg rs2 := hsrc _ (by simp [sourceRegs])
    simp only [resultOf, h1, h2]
  | addi _ rs1 | slti _ rs1 | xori _ rs1 | ori _ rs1 | andi _ rs1 | slli _ rs1 | srli _ rs1 | srai _ rs1 =>
    have h1 : s.reg rs1 = s'.reg rs1 := hsrc _ (by simp [sourceRegs])
    simp only [resultOf, h1]
  | lb _ rs1 imm | lh _ rs1 imm | lw _ rs1 imm =>
    have h1 : s.reg rs1 = s'.reg rs1 := hsrc _ (by simp [sourceRegs])
    have haddr : loadAddress rs1 imm s = loadAddress rs1 imm s' := by rw [loadAddress, h1, loadAddress]
    rw [resultOf, resultOf, hload _ _ rfl rfl, haddr]
  | jal => simp only [resultOf, hpc]
  | lui | sb | sh | sw | beq | bne | ecall => rfl

/-- The next pc depends on the source registers and the pc. -/
theorem pcAfter_congr (hsrc : ∀ r ∈ sourceRegs i, s.reg r = s'.reg r) (hpc : s.pc = s'.pc) :
    pcAfter i s = pcAfter i s' := by
  cases i with
  | beq rs1 rs2 off =>
    have h1 : s.reg rs1 = s'.reg rs1 := hsrc _ (by simp [sourceRegs])
    have h2 : s.reg rs2 = s'.reg rs2 := hsrc _ (by simp [sourceRegs])
    change (if s.reg rs1 = s.reg rs2 then to32 (u s.pc + sg off) else to32 (u s.pc + 4)) = _
    rw [h1, h2, hpc]
    rfl
  | bne rs1 rs2 off =>
    have h1 : s.reg rs1 = s'.reg rs1 := hsrc _ (by simp [sourceRegs])
    have h2 : s.reg rs2 = s'.reg rs2 := hsrc _ (by simp [sourceRegs])
    change (if s.reg rs1 = s.reg rs2 then to32 (u s.pc + 4) else to32 (u s.pc + sg off)) = _
    rw [h1, h2, hpc]
    rfl
  | jal _ off => exact congrArg (fun p : Word => to32 (u p + sg off)) hpc
  | _ => exact congrArg (fun p : Word => to32 (u p + 4)) hpc

theorem textOf_congr (hsrc : ∀ r ∈ sourceRegs i, s.reg r = s'.reg r) : textOf i s = textOf i s' := by
  cases i with
  | ecall =>
    have h1 : s.reg argumentReg = s'.reg argumentReg := hsrc _ (by simp [sourceRegs])
    exact congrArg (fun v : Word => decInt v.toInt) h1
  | _ => rfl

/-- The memory after depends on the source registers and the memory before. -/
theorem memAfter_congr (hsrc : ∀ r ∈ sourceRegs i, s.reg r = s'.reg r) (hm : s.mem = s'.mem) :
    memAfter i s = memAfter i s' := by
  cases i with
  | sb rs2 rs1 | sh rs2 rs1 | sw rs2 rs1 =>
    have h1 : s.reg rs1 = s'.reg rs1 := hsrc _ (by simp [sourceRegs])
    have h2 : s.reg rs2 = s'.reg rs2 := hsrc _ (by simp [sourceRegs])
    change stored _ (effectiveAddress (s.reg rs1) _) (s.reg rs2) s = _
    rw [h1, h2, stored, hm]
    rfl
  | _ => exact hm
end

/-- Settles O55: the condition and every part of a commit depend on the source registers, pc, memory and parameters only. -/
theorem onlySourcesRead : Obligations.OnlySourcesRead := by
  unfold Obligations.OnlySourcesRead
  intro i s s' t t' hsrc hpc hm hst hp hexec hexec'
  have hcond := conditionOf_congr hsrc hp
  rcases exec_cases i s with ⟨c, hc, he⟩ | ⟨hn, he⟩
  · cases he.symm.trans hexec
    cases (exec_of_condition (hcond ▸ hc)).symm.trans hexec'
    exact ⟨hpc, hm, rfl, ⟨_, rfl, rfl⟩, fun hn => absurd (hn.symm.trans hc) (Option.some_ne_none c).symm⟩
  · cases he.symm.trans hexec
    cases (exec_of_no_condition (hcond ▸ hn)).symm.trans hexec'
    refine ⟨pcAfter_congr hsrc hpc, memAfter_congr hsrc hm, hst, ⟨textOf i s, rfl, ?_⟩, fun _ r hr => ?_⟩
    · rw [textOf_congr hsrc, committed_out]
    · rw [committed_reg_dest hr, committed_reg_dest hr]
      refine resultOf_congr hsrc hpc fun w a _ _ => ?_
      rw [loaded, hm, loaded]

/-! ### The data access (R47, R106) -/

/-- Only a kind that writes memory changes it. -/
theorem memAfter_of_no_write {i : Instr} (h : ∀ w, dataAccess i ≠ some (.write w)) (s : State) :
    memAfter i s = s.mem := by
  cases i with
  | sb | sh | sw => exact absurd rfl (h _)
  | _ => rfl

/-- A kind that writes memory stores at its address, under any memory. -/
theorem memAfter_of_write {i : Instr} {w : Width} {a : Word} {s : State} (hacc : dataAccess i = some (.write w))
    (haddr : dataAddress i s = some a) :
    ∃ v, memAfter i s = stored w a v s := by
  cases i with
  | sb | sh | sw =>
    cases hacc
    cases haddr
    exact ⟨_, rfl⟩
  | _ => cases hacc

theorem dataAccess_eq_none_iff (i : Instr) (s : State) : dataAccess i = none ↔ dataAddress i s = none := by
  cases i with
  | lb | lh | lw | sb | sh | sw => exact iff_of_false (Option.some_ne_none _) (Option.some_ne_none _)
  | _ => exact iff_of_true rfl rfl

section
variable {i : Instr} {s t : State} {m : Memory}

/-- A kind that loads the same bytes from another memory has the same outcome there, the memory apart. -/
theorem exec_withMem (hexec : exec i s = .next t) (hload : ∀ w a, dataAccess i = some (.read w) →
    dataAddress i s = some a → loaded w a s = loaded w a { s with mem := m }) :
    exec i { s with mem := m } =
      .next { t with mem := if conditionOf i s = none then memAfter i { s with mem := m } else m } := by
  have hsrc : ∀ r ∈ sourceRegs i, s.reg r = ({ s with mem := m } : State).reg r := fun _ _ => rfl
  have hcond : conditionOf i s = conditionOf i { s with mem := m } := conditionOf_congr hsrc rfl
  rcases exec_cases i s with ⟨c, hc, he⟩ | ⟨hn, he⟩
  · cases he.symm.trans hexec
    rw [exec_of_condition (hcond ▸ hc), hc, if_neg (Option.some_ne_none c)]
    rfl
  · cases he.symm.trans hexec
    have hregs : regsAfter i s = regsAfter i { s with mem := m } := by
      simp only [regsAfter, resultOf_congr hsrc rfl hload]
    rw [exec_of_no_condition (hcond ▸ hn), if_pos hn]
    simp only [committed, ← hregs, ← pcAfter_congr hsrc rfl, ← textOf_congr hsrc]

/-- If it does not write memory, the other memory is kept. -/
theorem exec_withMem_of_no_write (hw : ∀ w, dataAccess i ≠ some (.write w)) (hexec : exec i s = .next t)
    (hload : ∀ w a, dataAccess i = some (.read w) → dataAddress i s = some a →
      loaded w a s = loaded w a { s with mem := m }) :
    exec i { s with mem := m } = .next { t with mem := m } := by
  rw [exec_withMem hexec hload, memAfter_of_no_write hw, ite_self]

/-- A kind without a data access neither sees nor changes memory. -/
theorem exec_withMem_of_no_access (hacc : dataAccess i = none) (hexec : exec i s = .next t) (m : Memory) :
    exec i { s with mem := m } = .next { t with mem := m } := by
  refine exec_withMem_of_no_write (fun w h => ?_) hexec fun w a h => ?_
  all_goals
    rw [hacc] at h
    cases h

/-- A reading kind sees the bytes of its width at its address, and changes none. -/
theorem exec_withMem_of_read {w : Width} {a : Word} (hacc : dataAccess i = some (.read w))
    (haddr : dataAddress i s = some a) (hexec : exec i s = .next t)
    (hm : ∀ k, k < w.bytes → m.read (a.toNat + k) = at_ s (a.toNat + k)) :
    exec i { s with mem := m } = .next { t with mem := m } := by
  refine exec_withMem_of_no_write (fun w h => ?_) hexec fun w' a' hacc' haddr' => ?_
  · rw [hacc] at h
    cases h
  · cases hacc.symm.trans hacc'
    cases haddr.symm.trans haddr'
    rw [loaded, loaded, Memory.readList_congr _ _ _ _ fun k hk => (hm k hk).symm]

/-- A writing kind sees no byte. -/
theorem exec_withMem_of_write {w : Width} (hacc : dataAccess i = some (.write w)) (hexec : exec i s = .next t)
    (m : Memory) : ∃ m', exec i { s with mem := m } = .next { t with mem := m' } := by
  refine ⟨_, exec_withMem hexec fun w' a' h => ?_⟩
  rw [hacc] at h
  cases h

/-- A writing kind changes no byte outside those of its width at its address. -/
theorem read_outside_write {w : Width} {a : Word} (hacc : dataAccess i = some (.write w))
    (haddr : dataAddress i s = some a) (hexec : exec i s = .next t) {x : Nat}
    (hx : x < a.toNat ∨ a.toNat + w.bytes ≤ x) : at_ t x = at_ s x := by
  rcases exec_cases i s with ⟨c, -, he⟩ | ⟨-, he⟩
  · cases he.symm.trans hexec
    rfl
  · cases he.symm.trans hexec
    obtain ⟨v, hv⟩ := memAfter_of_write hacc haddr
    exact (congrArg (Memory.read · x) hv).trans (read_stored_outside w a v s hx)
end

/-! ### The executing unit (R106) -/

section
variable {i : Instr}

/-- The ALU kinds are the ALU on two registers, or on a register and the extended immediate. -/
theorem exec_of_aluUnit (h : execUnit i = .aluArithmeticLogical) : ∃ op rd rs1, destReg i = some rd ∧
    ((∃ rs2, sourceRegs i = [rs1, rs2] ∧ ∀ s, exec i s = execAlu op rd (s.reg rs1) (s.reg rs2) s) ∨
     (∃ imm, i ∈ immForms rd rs1 imm ∧ ∀ s, exec i s = execAlu op rd (s.reg rs1) (immI imm) s)) := by
  cases i with
  | add rd rs1 rs2 => exact ⟨.add, rd, rs1, rfl, .inl ⟨rs2, rfl, fun _ => rfl⟩⟩
  | sub rd rs1 rs2 => exact ⟨.sub, rd, rs1, rfl, .inl ⟨rs2, rfl, fun _ => rfl⟩⟩
  | slt rd rs1 rs2 => exact ⟨.slt, rd, rs1, rfl, .inl ⟨rs2, rfl, fun _ => rfl⟩⟩
  | xor rd rs1 rs2 => exact ⟨.xor, rd, rs1, rfl, .inl ⟨rs2, rfl, fun _ => rfl⟩⟩
  | or rd rs1 rs2 => exact ⟨.or, rd, rs1, rfl, .inl ⟨rs2, rfl, fun _ => rfl⟩⟩
  | and rd rs1 rs2 => exact ⟨.and, rd, rs1, rfl, .inl ⟨rs2, rfl, fun _ => rfl⟩⟩
  | mul rd rs1 rs2 => exact ⟨.mul, rd, rs1, rfl, .inl ⟨rs2, rfl, fun _ => rfl⟩⟩
  | mulh rd rs1 rs2 => exact ⟨.mulh, rd, rs1, rfl, .inl ⟨rs2, rfl, fun _ => rfl⟩⟩
  | div rd rs1 rs2 => exact ⟨.div, rd, rs1, rfl, .inl ⟨rs2, rfl, fun _ => rfl⟩⟩
  | rem rd rs1 rs2 => exact ⟨.rem, rd, rs1, rfl, .inl ⟨rs2, rfl, fun _ => rfl⟩⟩
  | addi rd rs1 imm => exact ⟨.add, rd, rs1, rfl, .inr ⟨imm, by simp [immForms], fun _ => rfl⟩⟩
  | slti rd rs1 imm => exact ⟨.slt, rd, rs1, rfl, .inr ⟨imm, by simp [immForms], fun _ => rfl⟩⟩
  | xori rd rs1 imm => exact ⟨.xor, rd, rs1, rfl, .inr ⟨imm, by simp [immForms], fun _ => rfl⟩⟩
  | ori rd rs1 imm => exact ⟨.or, rd, rs1, rfl, .inr ⟨imm, by simp [immForms], fun _ => rfl⟩⟩
  | andi rd rs1 imm => exact ⟨.and, rd, rs1, rfl, .inr ⟨imm, by simp [immForms], fun _ => rfl⟩⟩
  | _ => cases h

/-- The shifter kinds are the shifter on the low bits of a register, or on the shift amount. -/
theorem exec_of_shifterUnit (h : execUnit i = .shifterUnit) : ∃ op rd rs1, destReg i = some rd ∧
    ((∃ rs2, sourceRegs i = [rs1, rs2] ∧ ∀ s, exec i s = execShift op rd (s.reg rs1) (shiftAmount (s.reg rs2)) s) ∨
     (∃ shamt, i ∈ shiftForms rd rs1 shamt ∧ ∀ s, exec i s = execShift op rd (s.reg rs1) shamt s)) := by
  cases i with
  | sll rd rs1 rs2 => exact ⟨.sll, rd, rs1, rfl, .inl ⟨rs2, rfl, fun _ => rfl⟩⟩
  | srl rd rs1 rs2 => exact ⟨.srl, rd, rs1, rfl, .inl ⟨rs2, rfl, fun _ => rfl⟩⟩
  | sra rd rs1 rs2 => exact ⟨.sra, rd, rs1, rfl, .inl ⟨rs2, rfl, fun _ => rfl⟩⟩
  | slli rd rs1 shamt => exact ⟨.sll, rd, rs1, rfl, .inr ⟨shamt, by simp [shiftForms], fun _ => rfl⟩⟩
  | srli rd rs1 shamt => exact ⟨.srl, rd, rs1, rfl, .inr ⟨shamt, by simp [shiftForms], fun _ => rfl⟩⟩
  | srai rd rs1 shamt => exact ⟨.sra, rd, rs1, rfl, .inr ⟨shamt, by simp [shiftForms], fun _ => rfl⟩⟩
  | _ => cases h

/-- The branch unit's kinds always commit, and link if they write. -/
theorem exec_of_branchUnit (h : execUnit i = .branchJumpLogic) (s : State) : ∃ t, exec i s = .next t ∧
    t.pc = pcAfter i s ∧ ∀ rd, destReg i = some rd → t.reg rd = to32 (u s.pc + 4) := by
  cases i with
  | beq | bne =>
    refine ⟨_, exec_of_no_condition rfl, rfl, fun rd hd => ?_⟩
    cases hd
  | jal => exact ⟨_, exec_of_no_condition rfl, rfl, fun rd hd => committed_reg_dest hd⟩
  | _ => cases h

/-- The wiring kind puts a value of the word alone. -/
theorem exec_of_wiring (h : execUnit i = .wiring) : ∃ rd v, destReg i = some rd ∧ ∀ s, exec i s = .next (put rd v s) := by
  cases i with
  | lui rd imm20 => exact ⟨rd, _, rfl, exec_lui rd imm20⟩
  | _ => cases h

/-- Only block control prints when it commits. -/
theorem textOf_of_unit (h : execUnit i ≠ .blockControl) (s : State) : textOf i s = [] := by
  cases i with
  | ecall => exact absurd rfl h
  | _ => rfl

theorem out_of_unit (h : execUnit i ≠ .blockControl) {s t : State} (hexec : exec i s = .next t)
    (hrun : t.status = .running) : t.out = s.out := by
  rcases exec_cases i s with ⟨c, -, he⟩ | ⟨-, he⟩
  · cases he.symm.trans hexec
    exact absurd hrun (finalStatus_ne_running c)
  · cases he.symm.trans hexec
    exact committed_out_of_silent (textOf_of_unit h s)

/-- Exactly the memory unit's kinds access memory. -/
theorem memoryUnit_iff : execUnit i = .memoryInterface ↔ dataAccess i ≠ none := by
  cases i with
  | lb | lh | lw | sb | sh | sw => exact iff_of_true rfl (Option.some_ne_none _)
  | _ => exact iff_of_false (by simp [execUnit]) (fun h => h rfl)
end

/-- Settles O60: one lemma per unit, and one per kind of data access. -/
theorem meaningsFollowControlOutputs : Obligations.MeaningsFollowControlOutputs := by
  unfold Obligations.MeaningsFollowControlOutputs
  refine fun i => ⟨exec_of_aluUnit, exec_of_shifterUnit, exec_of_branchUnit, exec_of_wiring,
    fun h s t hexec _ hrun => out_of_unit h hexec hrun, memoryUnit_iff, fun s t hexec => ?_⟩
  refine ⟨dataAccess_eq_none_iff i s, fun hacc m => exec_withMem_of_no_access hacc hexec m,
    fun w a hacc haddr m hm => exec_withMem_of_read hacc haddr hexec hm, fun w a hacc haddr => ?_⟩
  exact ⟨exec_withMem_of_write hacc hexec, fun x hx => read_outside_write hacc haddr hexec hx⟩

end Sys2Proof.Machine
end

section
/-! PROOFS. The sign_extender and the immediates as sums of bit groups (spec/41_immediate_reconstructor.md). -/

namespace Sys2Proof.Machine

open Claim

/-! ### Bits as numbers (R7) -/

theorem toNat_slice (w : Word) (lo n : Nat) : (w.extractLsb' lo n).toNat = bits w.toNat lo n := by
  rw [BitVec.extractLsb'_toNat, Nat.shiftRight_eq_div_pow, bits]

theorem bits_one (v lo : Nat) : bits v lo 1 = (v.testBit lo).toNat := (Nat.toNat_testBit v lo).symm

theorem toNat_setWidth_eq_bits (v : Word) (n : Nat) : (v.setWidth n).toNat = bits v.toNat 0 n := by
  rw [BitVec.toNat_setWidth, bits, Nat.pow_zero, Nat.div_one]

/-- The signed reading of a non-empty field takes its top bit's weight twice off. -/
theorem toInt_setWidth_eq_bits (v : Word) {n : Nat} (hn : 1 ≤ n) :
    (v.setWidth n).toInt = (bits v.toNat 0 n : Int) - 2 ^ n * (bits v.toNat (n - 1) 1 : Int) := by
  have hmsb : (v.setWidth n).msb = v.toNat.testBit (n - 1) := by
    rw [BitVec.msb_eq_getLsbD_last, BitVec.getLsbD_setWidth, decide_eq_true (by omega), Bool.true_and]
    rfl
  rw [BitVec.toInt_eq_msb_cond, hmsb, bits_one, toNat_setWidth_eq_bits]
  cases v.toNat.testBit (n - 1) with
  | true => simp
  | false => simp

/-! ### The sign_extender (R9, R120, R121) -/

section
variable {n : Nat} (v : Word)

theorem toInt_sext (hn : n ≤ 32) : (sext n v).toInt = (v.setWidth n).toInt := BitVec.toInt_signExtend_of_le hn

theorem getLsbD_sext_low (hn : n ≤ 32) {k : Nat} (hk : k < n) : (sext n v).getLsbD k = v.getLsbD k := by
  rw [sext, BitVec.getLsbD_signExtend, decide_eq_true (by omega), Bool.true_and, if_pos hk, BitVec.getLsbD_setWidth,
    decide_eq_true hk, Bool.true_and]

theorem getLsbD_sext_high (hn : 1 ≤ n) {k : Nat} (hk : n ≤ k) (hk32 : k < 32) :
    (sext n v).getLsbD k = v.getLsbD (n - 1) := by
  rw [sext, BitVec.getLsbD_signExtend, decide_eq_true hk32, Bool.true_and, if_neg (by omega),
    BitVec.msb_eq_getLsbD_last, BitVec.getLsbD_setWidth, decide_eq_true (by omega), Bool.true_and]

theorem sext_congr {v v' : Word} (h : bits v'.toNat 0 n = bits v.toNat 0 n) : sext n v' = sext n v := by
  have hw : v'.setWidth n = v.setWidth n := by
    apply BitVec.eq_of_toNat_eq
    rw [toNat_setWidth_eq_bits, toNat_setWidth_eq_bits, h]
  rw [sext, hw, sext]
end

/-- Settles O5: the output is the sign extension of the low N bits, whose signed reading and range are those of an N-bit
pattern. -/
theorem signExtenderCopiesSign : Obligations.SignExtenderCopiesSign := by
  unfold Obligations.SignExtenderCopiesSign
  intro n v hn hn32
  refine ⟨fun i hi => getLsbD_sext_low v hn32 hi, fun i hi hi32 => getLsbD_sext_high v hn hi hi32, ?_, ?_, ?_,
    fun v' h => sext_congr h⟩
  all_goals rw [sg, toInt_sext v hn32]
  · exact toInt_setWidth_eq_bits v hn
  · exact BitVec.le_toInt _
  · exact Int.le_sub_one_of_lt BitVec.toInt_lt

/-! ### The immediates (R122 to R127) -/

/-- A one-bit pattern reads as 0 or -1. -/
theorem toInt_bit (b : BitVec 1) : b.toInt = -(b.toNat : Int) := by
  revert b
  decide

/-- The signed reading of a concatenation whose high part is not empty. -/
theorem toInt_append_of_pos {m n : Nat} (x : BitVec m) (y : BitVec n) (hm : m ≠ 0) :
    (x ++ y).toInt = 2 ^ n * x.toInt + y.toNat := by
  rw [BitVec.toInt_append, if_neg (by simpa using hm)]

/-- Settles O6: each raw field is a concatenation of slices whose highest is the sign bit word[31]. -/
theorem immediatesFromBitGroups : Obligations.ImmediatesFromBitGroups := by
  unfold Obligations.ImmediatesFromBitGroups
  intro w
  have hI : rawI w = w.extractLsb' 31 1 ++ w.extractLsb' 20 11 := (extract_join w 20 1 11).symm
  have hS : rawS w = (w.extractLsb' 31 1 ++ w.extractLsb' 25 6) ++ w.extractLsb' 7 5 := by
    rw [extract_join w 25 1 6, rawS]
  rw [sg, sg, sg, sg, toInt_immI, toInt_immS, toInt_immB, toInt_immJ, hI, hS, rawB, rawJ]
  simp only [toInt_append_of_pos _ _ (Nat.succ_ne_zero _), toInt_bit, toNat_slice, BitVec.toNat_zero]
  refine ⟨?_, ?_, ?_, ?_, toNat_slice .., toNat_slice ..⟩
  all_goals omega

end Sys2Proof.Machine
end

section
/-! PROOFS. Shifts and division as the rules write them (spec/43_alu_register_register.md, spec/44_alu_register_immediate.md),
the spec's own words, and register 0. -/

namespace Sys2Proof

open Machine Claim

/-! ### Which words select a shift (R81, R82) -/

theorem decode_eq_unknownFunction {w : Word} {f : Family} (hop : opcodeOf w = f.opcode) (h : decodeFamily w f = none) :
    decode w = .error .unknownFunction := by
  simp only [decode, familyOf_eq_some_iff.mpr hop, h]

theorem decodeShiftRight_eq_none {f7 : BitVec 7} (rd rs1 : RegIdx) (shamt : BitVec 5) (h0 : f7 ≠ 0x00)
    (h20 : f7 ≠ 0x20) : decodeShiftRight f7 rd rs1 shamt = none := by
  unfold decodeShiftRight
  split
  · exact absurd rfl h0
  · exact absurd rfl h20
  · rfl

/-- A word of the register-immediate family decodes to what its function codes select. -/
theorem decodeFamily_regImm {w : Word} {f3 : BitVec 3} (hf3 : funct3Of w = f3) :
    decodeFamily w .immediateExceptLoad =
      decodeRegImm f3 (funct7Of w) (rdOf w) (rs1Of w) (rawI w) (shamtOf w) := by
  rw [decodeFamily, hf3]

/-- Settles O1: eleven valid words and three invalid ones, each decoded. -/
theorem specWordsDecode : Obligations.SpecWordsDecode := by
  unfold Obligations.SpecWordsDecode
  decide

namespace Machine

/-! ### The shifter (R184, R189, R190) -/

theorem to32_two_pow (k : Nat) : to32 (2 ^ k) = BitVec.twoPow 32 k := by
  apply BitVec.eq_of_toNat_eq
  have hcast : (2 ^ k : Int) = ((2 ^ k : Nat) : Int) := by push_cast; rfl
  rw [hcast, to32, BitVec.ofInt_natCast, BitVec.toNat_ofNat, BitVec.toNat_twoPow]

theorem shifter_sll (a : Word) (n : BitVec 5) : shifter .sll a n = to32 (u a * 2 ^ n.toNat) := by
  rw [to32_mul, to32_toNat, to32_two_pow]
  exact BitVec.shiftLeft_eq_mul_twoPow ..

theorem shifter_srl (a : Word) (n : BitVec 5) : shifter .srl a n = to32 (u a / 2 ^ n.toNat) := by
  have hval : u (a >>> n.toNat) = u a / 2 ^ n.toNat := by
    rw [u, BitVec.toNat_ushiftRight, Nat.shiftRight_eq_div_pow]
    push_cast
    rfl
  rw [← hval, to32_toNat, shifter]

theorem shifter_sra (a : Word) (n : BitVec 5) : shifter .sra a n = to32 (sg a / 2 ^ n.toNat) := by
  have hval : sg (a.sshiftRight n.toNat) = sg a / 2 ^ n.toNat := by
    rw [sg, BitVec.toInt_sshiftRight, Int.shiftRight_eq_div_pow]
    push_cast
    rfl
  rw [← hval, to32_toInt, shifter]

theorem toNat_shiftAmount (b : Word) : (shiftAmount b).toNat = bits b.toNat 0 5 := toNat_slice b 0 5

/-- A shift instruction puts the shifter's value in x[rd] (R180, R210). -/
theorem execShift_eq_put (op : ShiftOp) (rd : RegIdx) (a : Word) (n : BitVec 5) (s : State) :
    execShift op rd a n s = .next (put rd (shifter op a n) s) := by
  rw [execShift_eq, setReg_advance_eq_put]

/-- Settles O10: the amount is the slice b[4:0], and each shift is the product or the floor of the rules. -/
theorem registerShiftsByLowFiveBits : Obligations.RegisterShiftsByLowFiveBits := by
  unfold Obligations.RegisterShiftsByLowFiveBits
  refine ⟨selectsR fun _ _ _ => rfl, selectsR fun _ _ _ => rfl, selectsR fun _ _ _ => rfl, fun rd rs1 rs2 s => ?_⟩
  simp only [← toNat_shiftAmount, wrote, ← shifter_sll, ← shifter_srl, ← shifter_sra]
  exact ⟨execShift_eq_put .., execShift_eq_put .., execShift_eq_put ..⟩

/-- Settles O17: funct3 1 selects slli alone, funct3 5 is decided by all of word[31:25], and the shifts are those of the
register forms at the amount of the word. -/
theorem immediateShiftsByShamt : Obligations.ImmediateShiftsByShamt := by
  unfold Obligations.ImmediateShiftsByShamt
  refine ⟨fun w hop hf3 => ?_, fun w hop hf3 hf7 => ?_, fun w hop hf3 hf7 => ?_, fun w hop hf3 h0 h20 => ?_,
    fun rd rs1 shamt s => ?_⟩
  · exact decode_eq_ok_iff.mpr ⟨.immediateExceptLoad, hop, decodeFamily_regImm hf3⟩
  · exact decode_eq_ok_iff.mpr ⟨.immediateExceptLoad, hop, by rw [decodeFamily_regImm hf3, hf7]; rfl⟩
  · exact decode_eq_ok_iff.mpr ⟨.immediateExceptLoad, hop, by rw [decodeFamily_regImm hf3, hf7]; rfl⟩
  · exact decode_eq_unknownFunction (f := .immediateExceptLoad) hop
      ((decodeFamily_regImm hf3).trans (decodeShiftRight_eq_none _ _ _ h0 h20))
  · simp only [wrote, ← shifter_sll, ← shifter_srl, ← shifter_sra]
    exact ⟨execShift_eq_put .., execShift_eq_put .., execShift_eq_put ..⟩

/-! ### Division (R188, R192, R197) -/

theorem divUndefined_eq_false {a b : Word} (h : ¬ Undefined a b) : divUndefined a b = false := by
  rw [← Bool.not_eq_true, divUndefined_iff]
  exact h

/-- A defined ALU instruction puts the ALU's value in x[rd]. -/
theorem execAlu_eq_put_of_defined (op : AluOp) (rd : RegIdx) {a b : Word} (s : State) (h : ¬ Undefined a b) :
    execAlu op rd a b s = .next (put rd (aluValue op a b) s) := by
  rw [execAlu_of_defined (divUndefined_eq_false h), commit_eq, setReg_advance_eq_put]

theorem aluValue_div {a b : Word} (h : ¬ Undefined a b) : aluValue .div a b = to32 ((sg a).tdiv (sg b)) := by
  have hdef := divUndefined_eq_false h
  have hlow : to32 ((sg a).tdiv (sg b)) = a.sdiv b := by
    apply BitVec.eq_of_toInt_eq
    rw [BitVec.toInt_sdiv, to32, BitVec.toInt_ofInt]
  rw [hlow]
  rw [aluValue, alu, if_neg (by simp [hdef]), Option.getD_some]

theorem aluValue_rem {a b : Word} (h : ¬ Undefined a b) :
    aluValue .rem a b = to32 (sg a - sg b * (sg a).tdiv (sg b)) := by
  have hdef := divUndefined_eq_false h
  rw [← Int.tmod_def, ← BitVec.toInt_srem, to32_toInt]
  rw [aluValue, alu, if_neg (by simp [hdef]), Option.getD_some]

/-- Settles O13: where defined, the signed quotient; otherwise the `undefined` output of the ALU is taken. -/
theorem divTruncatesOrHalts : Obligations.DivTruncatesOrHalts := by
  unfold Obligations.DivTruncatesOrHalts
  refine ⟨selectsR fun _ _ _ => rfl, fun rd rs1 rs2 s => ⟨fun hdef => ?_, fun hundef => ?_⟩⟩
  · rw [wrote, ← aluValue_div hdef]
    exact execAlu_eq_put_of_defined .div rd s hdef
  · exact execAlu_of_undefined (.inl rfl) ((divUndefined_iff ..).mpr hundef)

/-- Settles O14: where defined, the signed remainder, which is the dividend less divisor times quotient. -/
theorem remFollowsDividendOrHalts : Obligations.RemFollowsDividendOrHalts := by
  unfold Obligations.RemFollowsDividendOrHalts
  refine ⟨selectsR fun _ _ _ => rfl, fun rd rs1 rs2 s => ⟨fun hdef => ?_, fun hundef => ?_⟩⟩
  · rw [wrote, ← aluValue_rem hdef]
    exact execAlu_eq_put_of_defined .rem rd s hdef
  · exact execAlu_of_undefined (.inr rfl) ((divUndefined_iff ..).mpr hundef)

/-! ### Register 0 (R21) -/

/-- Settles O18: the register file treats every index alike, and the four instances are those of the general rules. -/
theorem registerZeroOrdinary : Obligations.RegisterZeroOrdinary := by
  unfold Obligations.RegisterZeroOrdinary
  refine ⟨fun s r q v => State.reg_setReg s r q v, fun s => ⟨?_, ?_, ?_, ?_⟩⟩
  · exact addiWraps.2 0 0 5 s
  · rw [two_mul]
    exact (addSubWrap.2.2 5 0 0 s).1
  · exact jalLinksAndJumps.2 0 8 s
  · exact luiWritesUpperBits.2.1 0 0 s

end Machine

end Sys2Proof
end

section
/-! PROOFS. Loads and stores (spec/45_loads_stores.md, spec/20_memory.md): which words select them, the three answers of an
access, the bytes as the rules write them, and that all widths see the same bytes. -/

namespace Sys2Proof

open Machine Claim

/-! ### Which words select an instruction (R83, R84) -/

/-- A funct3 of the load family selects its instruction with the word's I immediate. -/
theorem selectsI_load {f3 : BitVec 3} {mk : RegIdx → RegIdx → BitVec 12 → Instr}
    (h : ∀ rd rs1 imm, decodeLoad f3 rd rs1 imm = some (mk rd rs1 imm)) : SelectsI 0x03 f3 mk := by
  intro w hop hf3
  refine decode_eq_ok_iff.mpr ⟨.load, hop, ?_⟩
  rw [decodeFamily, hf3, h]

/-- A funct3 of the store family selects its instruction with the word's split offset. -/
theorem selectsS {f3 : BitVec 3} {mk : RegIdx → RegIdx → BitVec 12 → Instr}
    (h : ∀ rs2 rs1 imm, decodeStore f3 rs2 rs1 imm = some (mk rs2 rs1 imm)) : SelectsS f3 mk := by
  intro w hop hf3
  refine decode_eq_ok_iff.mpr ⟨.store, hop, ?_⟩
  rw [decodeFamily, hf3, h]

namespace Machine

/-! ### The address and the checks (R42, R43, R51) -/

theorem loadAddress_eq (rs1 : RegIdx) (imm : BitVec 12) (s : State) :
    loadAddress rs1 imm s = to32 (u (s.reg rs1) + sg imm) := by
  rw [to32_add, to32_toNat, ← immI_eq]; rfl

theorem storeAddress_eq (rs1 : RegIdx) (imm : BitVec 12) (s : State) :
    storeAddress rs1 imm s = to32 (u (s.reg rs1) + sg imm) := by
  rw [to32_add, to32_toNat, ← immS_eq]; rfl

/-- Settles O19: `to32` carries the sum, and the extended displacement is the pattern of its signed reading. -/
theorem effectiveAddressWraps : Obligations.EffectiveAddressWraps := by
  unfold Obligations.EffectiveAddressWraps
  exact fun rs1 imm s => ⟨loadAddress_eq rs1 imm s, storeAddress_eq rs1 imm s⟩

/-- Alignment is reported only in bounds and only if checked (R46, R285). -/
theorem accessReject_eq_alignment (p : Params) (check : Bool) (a : Word) (w : Width) :
    accessReject p check a w = some .alignment ↔
      a.toNat + w.bytes ≤ p.memorySpace ∧ check = true ∧ a.toNat % w.bytes ≠ 0 := by
  unfold accessReject
  split
  · simp; omega
  · split <;> simp_all

/-- Settles O26: the two checks, in their order. -/
theorem accessChecksBoundsFirst : Obligations.AccessChecksBoundsFirst := by
  unfold Obligations.AccessChecksBoundsFirst
  exact fun p check a w => ⟨accessReject_eq_bounds p check a w, accessReject_eq_alignment p check a w⟩

section
variable {w : Width} {a : Word} {s : State}

theorem accessReject_of_ok (hb : InBounds a w.bytes s) (ha : AlignOk a w.bytes s) :
    accessReject s.params s.params.alignCheckEn a w = none := (accessReject_eq_none ..).mpr ⟨hb, ha⟩

theorem accessReject_of_out (hb : ¬ InBounds a w.bytes s) (check : Bool) :
    accessReject s.params check a w = some .bounds := (accessReject_eq_bounds ..).mpr (Nat.lt_of_not_le hb)

theorem accessReject_of_misaligned (hm : Misaligned a w.bytes s) :
    accessReject s.params s.params.alignCheckEn a w = some .alignment := (accessReject_eq_alignment ..).mpr hm

/-! ### The three answers of a load (R230) -/

variable {ext : Word → Word} {rd : RegIdx} {v : Word}

theorem loadReg_of_ok (hb : InBounds a w.bytes s) (ha : AlignOk a w.bytes s) :
    loadReg w ext rd a s = .next (put rd (ext (loaded w a s)) s) := by
  rw [loadReg_of_no_condition (readCondition_eq_none.mpr (accessReject_of_ok hb ha)), commit_eq, setReg_advance_eq_put]

theorem loadReg_of_reject {kind : AccessFault} (h : accessReject s.params s.params.alignCheckEn a w = some kind) :
    loadReg w ext rd a s = .next (readHalt a kind s) :=
  loadReg_of_condition (by rw [readCondition, h]; rfl)

/-! ### The three answers of a store (R230) -/

/-- The bytes of an accepted store are those of the word, in little-endian order (R41, R45). -/
theorem read_stored_inside (hm : s.mem.wf) {i : Nat} (hi : i < w.bytes) :
    (stored w a v s).read (a.toNat + i) = v.extractLsb' (8 * i) 8 := by
  rw [stored, Memory.read_writeList _ _ _ _ hm (by rwa [length_leBytes]), getElem_leBytes]

theorem storeReg_of_ok (hm : s.mem.wf) (hb : InBounds a w.bytes s) (ha : AlignOk a w.bytes s) :
    Stores w.bytes a.toNat v s (storeReg w a v s) := by
  refine ⟨_, storeReg_of_no_condition (writeCondition_eq_none.mpr (accessReject_of_ok hb ha)), rfl, rfl, rfl, rfl, rfl,
    rfl, fun i hi => read_stored_inside hm hi, fun x hx => read_stored_outside w a v s hx⟩

theorem storeReg_of_reject {kind : AccessFault} (h : accessReject s.params s.params.alignCheckEn a w = some kind) :
    storeReg w a v s = .next (writeHalt a kind s) :=
  storeReg_of_condition (by rw [writeCondition, h]; rfl)
end

/-- A single byte is always aligned. -/
theorem alignOk_one (a : Word) (s : State) : AlignOk a 1 s := fun _ => Nat.mod_one _

/-! ### The loaded values (R44, R231 to R233) -/

theorem to32_natCast (n : Nat) : to32 (n : Int) = BitVec.ofNat 32 n := BitVec.ofInt_natCast ..

/-- The narrow little-endian bytes, sign-extended. -/
theorem sext_ofNat_toNat {n : Nat} (hn : n ≤ 32) (v : BitVec n) : sext n (BitVec.ofNat 32 v.toNat) = to32 v.toInt := by
  rw [BitVec.ofNat_toNat, sext_setWidth hn, to32_toInt_narrow hn]

theorem sext_loaded_byte (a : Word) (s : State) : sext 8 (loaded .byte a s) = to32 (sg (at_ s a.toNat)) := by
  have hval : loaded .byte a s = BitVec.ofNat 32 (at_ s a.toNat).toNat := rfl
  rw [hval, sext_ofNat_toNat (by decide)]

theorem sext_loaded_half (a : Word) (s : State) :
    sext 16 (loaded .half a s) = to32 (sg (at_ s (a.toNat + 1) ++ at_ s a.toNat)) := by
  have hcat (hi lo : Byte) : leValue [lo, hi] = (hi ++ lo).toNat := by
    have := lo.isLt
    rw [BitVec.toNat_append, ← Nat.shiftLeft_add_eq_or_of_lt lo.isLt, Nat.shiftLeft_eq]
    simp only [leValue]
    omega
  have hval : loaded .half a s = BitVec.ofNat 32 (at_ s (a.toNat + 1) ++ at_ s a.toNat).toNat :=
    congrArg (BitVec.ofNat 32) (hcat _ _)
  rw [hval]
  exact sext_ofNat_toNat (by decide) _

/-- Four bytes as the rules sum them. -/
theorem ofNat_leValue_four (b0 b1 b2 b3 : Byte) : BitVec.ofNat 32 (leValue [b0, b1, b2, b3]) =
    to32 (b0.toNat + 2 ^ 8 * b1.toNat + 2 ^ 16 * b2.toNat + 2 ^ 24 * b3.toNat) := by
  rw [← to32_natCast]
  congr 1
  simp only [leValue]
  push_cast
  ring

theorem loaded_word (a : Word) (s : State) : loaded .word a s =
    to32 ((at_ s a.toNat).toNat + 2 ^ 8 * (at_ s (a.toNat + 1)).toNat + 2 ^ 16 * (at_ s (a.toNat + 2)).toNat +
      2 ^ 24 * (at_ s (a.toNat + 3)).toNat) := ofNat_leValue_four ..

/-! ### The loads -/

/-- Settles O20: the one byte, read as a signed number; a byte is never misaligned. -/
theorem lbSignExtendsByte : Obligations.LbSignExtendsByte := by
  unfold Obligations.LbSignExtendsByte
  refine ⟨selectsI_load fun _ _ _ => rfl, fun rd rs1 imm s a ha => ?_⟩
  rw [← loadAddress_eq] at ha
  subst ha
  refine ⟨fun hb => ?_, fun hb => loadReg_of_reject (accessReject_of_out (w := .byte) hb _)⟩
  rw [wrote, ← sext_loaded_byte]
  exact loadReg_of_ok hb (alignOk_one _ _)

/-- Settles O21: the two bytes joined, read as a signed number. -/
theorem lhSignExtendsHalf : Obligations.LhSignExtendsHalf := by
  unfold Obligations.LhSignExtendsHalf
  refine ⟨selectsI_load fun _ _ _ => rfl, fun rd rs1 imm s a ha => ?_⟩
  rw [← loadAddress_eq] at ha
  subst ha
  refine ⟨fun hb hal => ?_, fun hb => loadReg_of_reject (accessReject_of_out (w := .half) hb _),
    fun hm => loadReg_of_reject (accessReject_of_misaligned (w := .half) hm)⟩
  rw [wrote, ← sext_loaded_half]
  exact loadReg_of_ok hb hal

/-- Settles O22: the four bytes summed. -/
theorem lwLoadsWord : Obligations.LwLoadsWord := by
  unfold Obligations.LwLoadsWord
  refine ⟨selectsI_load fun _ _ _ => rfl, fun rd rs1 imm s a ha => ?_⟩
  rw [← loadAddress_eq] at ha
  subst ha
  refine ⟨fun hb hal => ?_, fun hb => loadReg_of_reject (accessReject_of_out (w := .word) hb _),
    fun hm => loadReg_of_reject (accessReject_of_misaligned (w := .word) hm)⟩
  rw [wrote, ← loaded_word]
  exact loadReg_of_ok (w := .word) (ext := id) hb hal

/-! ### The stores -/

/-- Settles O23: the low byte put at the address; a byte is never misaligned. -/
theorem sbStoresLowByte : Obligations.SbStoresLowByte := by
  unfold Obligations.SbStoresLowByte
  refine ⟨selectsS fun _ _ _ => rfl, fun rs2 rs1 imm s a ha => ?_⟩
  rw [← storeAddress_eq] at ha
  subst ha
  exact ⟨fun hm hb => storeReg_of_ok (w := .byte) hm hb (alignOk_one _ _),
    fun hb => storeReg_of_reject (accessReject_of_out (w := .byte) hb _)⟩

/-- Settles O24: the low two bytes put at the address, or neither. -/
theorem shStoresLowHalf : Obligations.ShStoresLowHalf := by
  unfold Obligations.ShStoresLowHalf
  refine ⟨selectsS fun _ _ _ => rfl, fun rs2 rs1 imm s a ha => ?_⟩
  rw [← storeAddress_eq] at ha
  subst ha
  exact ⟨fun hm hb hal => storeReg_of_ok (w := .half) hm hb hal,
    fun hb => storeReg_of_reject (accessReject_of_out (w := .half) hb _),
    fun hmis => storeReg_of_reject (accessReject_of_misaligned (w := .half) hmis)⟩

/-- The word stored is the word loaded from the same address (R48). -/
theorem loaded_word_of_stored {a v : Word} {s t : State} (hm : s.mem.wf) (ht : t.mem = stored .word a v s) :
    loaded .word a t = v := by
  have hbytes : (stored .word a v s).readList a.toNat 4 = leBytes 4 v :=
    Memory.readList_writeList (leBytes 4 v) s.mem a.toNat hm
  rw [loaded, ht, Width.bytes, hbytes, leValue_leBytes_four, BitVec.ofNat_toNat, BitVec.setWidth_eq]

theorem lw_of_stored {rd rs1 : RegIdx} {imm : BitVec 12} {a v : Word} {s t : State} (hm : s.mem.wf)
    (ht : t.mem = stored .word a v s) (ha : loadAddress rs1 imm t = a) (hb : InBounds a 4 t) (hal : AlignOk a 4 t) :
    exec (.lw rd rs1 imm) t = .next (put rd v t) := by
  rw [← loaded_word_of_stored hm ht]
  subst ha
  exact loadReg_of_ok (w := .word) (ext := id) hb hal

/-- Settles O25: the four bytes put at the address; they are the ones a load of the next state reads. -/
theorem swStoresWordLwReadsBack : Obligations.SwStoresWordLwReadsBack := by
  unfold Obligations.SwStoresWordLwReadsBack
  refine ⟨selectsS fun _ _ _ => rfl, fun rs2 rs1 imm s a ha => ?_⟩
  rw [← storeAddress_eq] at ha
  subst ha
  refine ⟨fun hm hb hal => ⟨storeReg_of_ok (w := .word) hm hb hal, fun rd t hexec => ?_⟩,
    fun hb => storeReg_of_reject (accessReject_of_out (w := .word) hb _),
    fun hmis => storeReg_of_reject (accessReject_of_misaligned (w := .word) hmis)⟩
  have hnone := writeCondition_eq_none.mpr (accessReject_of_ok (w := .word) hb hal)
  cases (storeReg_of_no_condition hnone).symm.trans hexec
  exact lw_of_stored (s := s) hm rfl rfl hb hal

/-! ### Mixed widths (R47, R48) -/

/-- A slice of a shifted word. -/
theorem extract_ushiftRight (v : Word) (k lo n : Nat) : (v >>> k).extractLsb' lo n = v.extractLsb' (k + lo) n := by
  ext i hi
  simp [Nat.add_assoc]

theorem leBytes_succ (n : Nat) (v : Word) : leBytes (n + 1) v = v.extractLsb' 0 8 :: leBytes n (v >>> 8) := by
  rw [leBytes, List.range_succ_eq_map, List.map_cons, List.map_map, leBytes]
  congr 1
  refine List.map_congr_left fun i _ => ?_
  rw [extract_ushiftRight, Function.comp_apply, Nat.mul_succ, Nat.add_comm]

/-- The low bytes of a word spell its low bits (R41). -/
theorem leValue_leBytes (n : Nat) (v : Word) : leValue (leBytes n v) = v.toNat % 2 ^ (8 * n) := by
  induction n generalizing v with
  | zero => exact (Nat.mod_one _).symm
  | succ n ih =>
    rw [leBytes_succ, leValue, ih, BitVec.toNat_ushiftRight, BitVec.extractLsb'_toNat, Nat.shiftRight_zero,
      Nat.shiftRight_eq_div_pow, Nat.mul_succ, Nat.add_comm (8 * n), Nat.pow_add]
    exact (Nat.mod_mul ..).symm

/-- The low bits of a word as a masked word (R40). -/
theorem ofNat_mod_eq_and (v : Word) {k : Nat} (hk : k ≤ 32) :
    BitVec.ofNat 32 (v.toNat % 2 ^ k) = v &&& to32 (2 ^ k - 1) := by
  have hcast : (2 ^ k - 1 : Int) = ((2 ^ k - 1 : Nat) : Int) := by
    rw [Nat.cast_sub Nat.one_le_two_pow]
    push_cast
    rfl
  have hlt : 2 ^ k - 1 < 2 ^ 32 :=
    Nat.lt_of_lt_of_le (Nat.sub_lt (Nat.two_pow_pos k) Nat.one_pos) (Nat.pow_le_pow_right (by decide) hk)
  apply BitVec.eq_of_toNat_eq
  rw [hcast, to32_natCast, BitVec.toNat_and, BitVec.toNat_ofNat, BitVec.toNat_ofNat, Nat.mod_eq_of_lt hlt,
    Nat.and_two_pow_sub_one_eq_mod]
  exact Nat.mod_eq_of_lt (Nat.lt_of_le_of_lt (Nat.mod_le ..) v.isLt)

theorem getElem_readList (m : Memory) (a n k : Nat) (hk : k < (m.readList a n).length) :
    (m.readList a n)[k] = m.read (a + k) := by
  induction n generalizing a k with
  | zero => exact absurd hk (Nat.not_lt_zero k)
  | succ n ih =>
    cases k with
    | zero => rfl
    | succ k =>
      rw [show a + (k + 1) = a + 1 + k by omega, ← ih (a + 1) k (by simpa using hk)]
      rfl

/-- A read inside a store sees the stored word from the byte it starts at. -/
theorem readList_stored_inside {w : Width} {a v : Word} {s : State} (hm : s.mem.wf) {i n : Nat} (hn : i + n ≤ w.bytes) :
    (stored w a v s).readList (a.toNat + i) n = leBytes n (v >>> (8 * i)) := by
  refine List.ext_getElem (by simp) fun k hk _ => ?_
  have hkn : k < n := by simpa using hk
  rw [getElem_readList, Nat.add_assoc, read_stored_inside hm (by omega), getElem_leBytes, extract_ushiftRight,
    Nat.mul_add]

/-- A width has at most four bytes (R40). -/
theorem bytes_le_four (w : Width) : w.bytes ≤ 4 := by cases w <;> decide

/-- An accepted read without the alignment check. -/
theorem memRead_of_inBounds {b : Word} {w : Width} {s : State} (hb : InBounds b w.bytes s) :
    memRead false b w s = .ok (loaded w b s) := by
  have hok : accessReject s.params false b w = none := (accessReject_eq_none ..).mpr ⟨hb, fun h => nomatch h⟩
  simp only [memRead, hok, loaded]

/-- Settles O27: a store puts the bytes of its word and no others, so a read inside sees a slice of the word and a read
outside what was there. -/
theorem mixedWidthsSeeSameBytes : Obligations.MixedWidthsSeeSameBytes := by
  unfold Obligations.MixedWidthsSeeSameBytes
  intro check a b w w' v s t hm hwrite
  rcases memWrite_cases check a w v s with ⟨kind, -, he⟩ | ⟨hok, he⟩
  · cases he.symm.trans hwrite
  cases he.symm.trans hwrite
  obtain ⟨hbound, -⟩ := (accessReject_eq_none ..).mp hok
  refine ⟨fun i hbi hi => ?_, fun hout => ?_⟩
  · have hb : InBounds b w'.bytes s := by
      change b.toNat + w'.bytes ≤ s.params.memorySpace
      omega
    have hbits : 8 * w'.bytes ≤ 32 := Nat.mul_le_mul_left 8 (bytes_le_four w')
    refine (memRead_of_inBounds (s := { s with mem := stored w a v s }) hb).trans (congrArg _ ?_)
    rw [loaded, hbi, ← ofNat_mod_eq_and _ hbits, ← leValue_leBytes, ← readList_stored_inside hm hi]
  · have hread : (stored w a v s).readList b.toNat w'.bytes = s.mem.readList b.toNat w'.bytes :=
      Memory.readList_congr _ _ _ _ fun k hk => read_stored_outside w a v s (by omega)
    rw [memRead, memRead, ← hread]
    rfl

end Machine

end Sys2Proof
end

section
/-! PROOFS. ecall and the status (spec/48_system_call.md, spec/60_exceptions.md), and what a step fetches or serves
(spec/70_reset_and_hazards.md section 2). -/

namespace Sys2Proof.Machine

open Claim

/-! ### ecall (R271 to R274) -/

/-- Settles O32: under selector 1 ecall meets no condition, and its commit prints and advances. -/
theorem ecallPrintsInteger : Obligations.EcallPrintsInteger := by
  unfold Obligations.EcallPrintsInteger
  refine ⟨fun w hop => decode_eq_ok_iff.mpr ⟨.systemCall, hop, rfl⟩, fun s h1 => ?_⟩
  exact exec_of_no_condition (conditionOf_ecall_eq_none.mpr h1)

/-- An open text ends in its newline (R6). -/
theorem getLast?_openText (body : List (BitVec 7)) : (openText body).getLast? = some 0x0A := List.getLast?_concat ..

theorem conditionOf_ecall_exit {s : State} (h : s.reg 10 = 10) : conditionOf .ecall s = some .exit := by
  have h10 : s.reg selectorReg = 10#32 := h
  rw [conditionOf, h10, if_neg (by decide), if_pos rfl]

theorem conditionOf_ecall_unsupported {s : State} (h1 : s.reg 10 ≠ 1) (h10 : s.reg 10 ≠ 10) :
    conditionOf .ecall s = some (.fail (.unsupportedSyscall (s.reg 10))) := by
  have h1' : s.reg selectorReg ≠ 1#32 := h1
  have h10' : s.reg selectorReg ≠ 10#32 := h10
  rw [conditionOf, if_neg h1', if_neg h10']
  rfl

/-- Settles O33: under selector 10 ecall takes the exit. -/
theorem ecallExitsRun : Obligations.EcallExitsRun := by
  unfold Obligations.EcallExitsRun
  exact fun s h => ⟨exec_of_condition (conditionOf_ecall_exit h), rfl, getLast?_openText _⟩

/-- Settles O34: under any other selector ecall takes the unsupported-system-call failure. -/
theorem ecallUnsupportedFails : Obligations.EcallUnsupportedFails := by
  unfold Obligations.EcallUnsupportedFails
  rintro s _ rfl h1 h10
  exact ⟨exec_of_condition (conditionOf_ecall_unsupported h1 h10), getLast?_openText _⟩

/-! ### The status (R281) -/

/-- Settles O35: the codes are those of the table, and the exit status of a failure is a successor. -/
theorem statusCodes : Obligations.StatusCodes := by
  unfold Obligations.StatusCodes
  exact ⟨rfl, rfl, fun _ => rfl, fun _ _ => rfl, fun _ _ => rfl, fun _ => rfl, rfl, rfl, fun _ => rfl,
    Nat.succ_ne_zero _⟩

/-! ### What a step serves or fetches (R15, R316) -/

section
variable {s : State} {w : Word} {i : Instr}

theorem executeWord_of_valid (hrun : s.status = .running) (hd : decode w = .ok i) : executeWord w s = exec i s := by
  simp only [executeWord, hrun, hd]

/-- An offered transaction is served before anything is fetched (log 9). -/
theorem step_of_offered {c : Command} {rest : List Command} (hc : s.commands = c :: rest) :
    step s = transact c { s with commands := rest } := by
  simp only [step, turn, hc]

theorem step_of_offered_valid {rest : List Command} (hc : s.commands = .execute w :: rest) (hrun : s.status = .running)
    (hd : decode w = .ok i) : step s = exec i { s with commands := rest } := by
  rw [step_of_offered hc]
  exact executeWord_of_valid hrun hd

theorem step_of_not_offered (hc : s.commands = []) : step s = driverTurn s := by
  simp only [step, turn, hc]

/-- With nothing offered a running machine executes the word at pc (R316). -/
theorem step_of_fetch (hc : s.commands = []) (hrun : s.status = .running) (hb : InBounds s.pc 4 s) :
    step s = executeWord (loaded .word s.pc s) s := by
  have hfetch : fetchWord s = .ok (loaded .word s.pc s) := memRead_of_inBounds hb
  simp only [step_of_not_offered hc, driverTurn, hrun, hfetch]

/-- A fetch out of bounds halts like a load (R317). -/
theorem step_of_fetch_out (hc : s.commands = []) (hrun : s.status = .running) (hb : ¬ InBounds s.pc 4 s) :
    step s = .next (readHalt s.pc .bounds s) := by
  have hfetch : fetchWord s = .error (.fail (.badRead s.pc .bounds)) := by
    simp only [fetchWord, memRead, accessReject_of_out (w := .word) hb]
  simp only [step_of_not_offered hc, driverTurn, hrun, hfetch]
  rfl
end

/-- Four bytes decode as their little-endian word does (R54). -/
theorem decode_of_decodeBytes {b0 b1 b2 b3 : Byte} {i : Instr} (h : decodeBytes [b0, b1, b2, b3] = .ok (i, [])) :
    decode (BitVec.ofNat 32 (leValue [b0, b1, b2, b3])) = .ok i := by
  rw [decodeBytes] at h
  split at h
  next j hd =>
    cases h
    exact hd
  · cases h

/-- Settles O45: the bytes at pc are those of the word fetched, and a running machine executes it. -/
theorem stepRunsDecoded : Obligations.StepRunsDecoded := by
  unfold Obligations.StepRunsDecoded
  intro s i hc hrun hb hd _
  rw [step_of_fetch hc hrun hb]
  exact executeWord_of_valid hrun (decode_of_decodeBytes hd)

/-- Settles O46: the word fetched is the four bytes summed, and the fetch asks for no alignment. -/
theorem fetchAtPc : Obligations.FetchAtPc := by
  unfold Obligations.FetchAtPc
  refine fun s hc hrun => ⟨step_of_fetch_out hc hrun, fun hb => ?_⟩
  rw [step_of_fetch hc hrun hb, loaded_word]
  rfl

/-- Settles O47: the step is the oldest transaction; what that does is the transaction's own rule. -/
theorem stepServesOffered : Obligations.StepServesOffered := by
  unfold Obligations.StepServesOffered
  refine fun s rest => ⟨fun c hc => step_of_offered hc, fun w hc => step_of_offered hc,
    fun w i hc hrun hd => step_of_offered_valid hc hrun hd, fun w r hc hrun hd => ?_, fun w hc hhalt => ?_⟩
  · rw [step_of_offered hc]
    exact (invalidWordHaltsOrPrints w r { s with commands := rest } hd).1 hrun
  · rw [step_of_offered hc]
    exact executeWord_of_halted hhalt

/-! ### A word placed, and a word stored, before the fetch -/

theorem withFetchWord_eq (s : State) (w : Word) : s.withFetchWord 32 w.toNat = placeWord s w := by
  rw [State.withFetchWord, Nat.mod_eq_of_lt w.isLt, BitVec.ofNat_toNat, BitVec.setWidth_eq]

/-- A word stored at pc is the one the step executes (R48, R58). -/
theorem step_of_stored_word {s t : State} {w : Word} (hm : s.mem.wf) (hc : t.commands = []) (hrun : t.status = .running)
    (hb : InBounds t.pc 4 t) (ht : t.mem = stored .word t.pc w s) : step t = executeWord w t := by
  rw [step_of_fetch hc hrun hb, loaded_word_of_stored hm ht]

/-- Settles O48: with room at pc the next fetch reads the word's bytes back; without, the word is the oldest transaction. -/
theorem placedWordRuns : Obligations.PlacedWordRuns := by
  unfold Obligations.PlacedWordRuns
  intro s w i hm hd
  rw [withFetchWord_eq]
  by_cases hb : InBounds s.pc 4 s
  · have hplace : placeWord s w = { s with mem := stored .word s.pc w s, status := .running, commands := [] } :=
      if_pos hb
    rw [hplace]
    refine ⟨{ s with mem := stored .word s.pc w s, status := .running, commands := [] }, ?_, rfl, rfl, rfl, rfl, rfl,
      rfl, rfl, fun _ => ⟨fun k hk => ?_, fun x hx => ?_⟩, fun h => absurd hb h⟩
    · refine Eq.trans (step_of_stored_word hm ?_ ?_ hb rfl) (executeWord_of_valid ?_ hd) <;> rfl
    · exact read_stored_inside (w := .word) hm hk
    · exact read_stored_outside .word s.pc w s hx
  · have hplace : placeWord s w = { s with status := .running, commands := [.execute w] } := if_neg hb
    rw [hplace]
    refine ⟨{ s with status := .running, commands := [] }, ?_, rfl, rfl, rfl, rfl, rfl, rfl, rfl,
      fun h => absurd h hb, fun _ => rfl⟩
    refine step_of_offered_valid ?_ ?_ hd <;> rfl

/-- Settles O49: the store puts the word where the next fetch reads. -/
theorem storeSeenByNextFetch : Obligations.StoreSeenByNextFetch := by
  unfold Obligations.StoreSeenByNextFetch
  intro rs2 rs1 imm s hm hc hrun haddr hb hal
  refine ⟨_, storeReg_of_no_condition (writeCondition_eq_none.mpr (accessReject_of_ok (w := .word) hb hal)), ?_⟩
  rw [haddr] at hb ⊢
  exact step_of_stored_word hm hc hrun hb rfl

end Sys2Proof.Machine
end

section
/-! PROOFS. Text: the primitives dec and hex8 (spec/00_scope.md section 5) and the rendered line (spec/42_disassembler.md). -/

namespace Sys2Proof.Machine

open Claim

/-! ### Decimal digits (R13) -/

theorem readDec_concat (text : List Byte) (b : Byte) : readDec (text ++ [b]) = 10 * readDec text + (b.toNat - 0x30) := by
  rw [readDec, List.foldl_append]
  rfl

theorem isDec_digit (n : Nat) : IsDec (digit n) := by
  rw [IsDec, digit_toNat]
  omega

theorem isDec_decDigits (fuel n : Nat) : ∀ b ∈ decDigits fuel n, IsDec b := by
  induction fuel generalizing n with
  | zero => exact List.forall_mem_nil _
  | succ fuel ih =>
    have hdigit : ∀ b ∈ [digit n], IsDec b := List.forall_mem_singleton.mpr (isDec_digit n)
    rw [decDigits]
    split
    · exact hdigit
    · exact List.forall_mem_append.mpr ⟨ih _, hdigit⟩

/-- With fuel enough for the binary digits, the decimal digits spell the number. -/
theorem readDec_decDigits {fuel n : Nat} (h : n < 2 ^ fuel) : readDec (decDigits fuel n) = n := by
  induction fuel generalizing n with
  | zero => exact (Nat.lt_one_iff.mp h).symm
  | succ fuel ih =>
    rw [decDigits]
    split
    case isTrue hn =>
      have hread : readDec [digit n] = (digit n).toNat - 0x30 := by simp [readDec]
      rw [hread, digit_toNat]
      omega
    case isFalse hn =>
      rw [readDec_concat, ih (by omega), digit_toNat]
      omega

/-- The first digit of a number other than 0 is not 0. -/
theorem head?_decDigits {fuel n : Nat} (h : n < 2 ^ fuel) (hn : n ≠ 0) :
    ∃ d, (decDigits fuel n).head? = some d ∧ d.toNat ≠ 0x30 := by
  induction fuel generalizing n with
  | zero => omega
  | succ fuel ih =>
    rw [decDigits]
    split
    case isTrue hlt =>
      refine ⟨_, rfl, ?_⟩
      rw [digit_toNat]
      omega
    case isFalse hge =>
      obtain ⟨d, hd, hne⟩ := ih (n := n / 10) (by omega) (by omega)
      exact ⟨d, by rw [List.head?_append, hd, Option.some_or], hne⟩

theorem decInt_natCast (n : Nat) : decInt (n : Int) = decNat n := by
  rw [decInt, if_neg (by omega), Int.natAbs_natCast]

theorem decInt_neg_natCast {n : Nat} (hn : n ≠ 0) : decInt (-(n : Int)) = 0x2D :: decNat n := by
  rw [decInt, if_pos (by omega), Int.natAbs_neg, Int.natAbs_natCast]
  rfl

theorem isDec_decNat (n : Nat) : ∀ b ∈ decNat n, IsDec b := isDec_decDigits _ _
theorem readDec_decNat (n : Nat) : readDec (decNat n) = n := readDec_decDigits Nat.lt_log2_self

theorem head?_decNat {n : Nat} (hn : n ≠ 0) : (decNat n).head? ≠ some 0x30 := by
  obtain ⟨d, hd, hne⟩ := head?_decDigits Nat.lt_log2_self hn
  rw [decNat, hd]
  rintro ⟨⟩
  exact hne rfl

/-! ### Hexadecimal digits (R13) -/

/-- A hexadecimal digit is one and reads as its nibble. -/
theorem hexDigit_spells : ∀ d : BitVec 4, ((0x30 ≤ (hexDigit d).toNat ∧ (hexDigit d).toNat ≤ 0x39) ∨
    (0x61 ≤ (hexDigit d).toNat ∧ (hexDigit d).toNat ≤ 0x66)) ∧
    (if (hexDigit d).toNat < 0x3A then (hexDigit d).toNat - 0x30 else (hexDigit d).toNat - 0x61 + 10) = d.toNat := by
  decide

theorem isHex_hex8 (v : Word) : ∀ b ∈ hex8 v, IsHex b := by
  intro b hb
  obtain ⟨i, -, rfl⟩ := List.mem_map.mp hb
  exact (hexDigit_spells _).1

theorem readHex_hex8 (v : Word) : readHex (hex8 v) = v.toNat := by
  have hv := v.isLt
  simp only [readHex, hex8, List.map_cons, List.map_nil, List.foldl_cons, List.foldl_nil, (hexDigit_spells _).2,
    toNat_slice, bits]
  omega

/-- Settles O41: dec peels decimal digits until one is left, hex8 lists the eight nibbles. -/
theorem textPrimitivesSpell : Obligations.TextPrimitivesSpell := by
  unfold Obligations.TextPrimitivesSpell
  refine ⟨fun _ _ => rfl, fun n => ?_, fun n hn => ?_, fun v => ⟨rfl, isHex_hex8 v, readHex_hex8 v⟩⟩
  · rw [decInt_natCast]
    exact ⟨isDec_decNat n, readDec_decNat n, rfl, head?_decNat⟩
  · rw [decInt_neg_natCast hn, decInt_natCast]

/-! ### The rendered line (R140, R154) -/

theorem render_of_valid {w : Word} {i : Instr} (h : decode w = .ok i) :
    render w = ascii (mnemonic i) ++ operandText i ++ newline := by
  simp only [render, h]

theorem render_of_invalid {w : Word} {r : Reject} (h : decode w = .error r) : render w = invalidLine w := by
  simp only [render, h]

/-- No mnemonic begins with the I of the invalid-instruction line. -/
theorem head?_mnemonic (i : Instr) (rest : List Byte) : (ascii (mnemonic i) ++ rest).head? ≠ some 0x49 := by
  cases i <;> simp [mnemonic, ascii]

/-- Settles O43: one decoder decides both the line and the execution, and the two kinds of line differ in their first byte. -/
theorem renderAgreesWithDecode : Obligations.RenderAgreesWithDecode := by
  unfold Obligations.RenderAgreesWithDecode
  refine fun w => ⟨⟨fun hline => ?_, fun ⟨r, hr⟩ => render_of_invalid hr⟩, fun i hi => ?_⟩
  · cases hd : decode w with
    | error r => exact ⟨r, rfl⟩
    | ok i =>
      rw [render_of_valid hd, List.append_assoc] at hline
      exact absurd (congrArg List.head? hline) (head?_mnemonic i _)
  · exact ⟨operandText i ++ newline, by rw [render_of_valid hi, List.append_assoc]⟩

/-! ### One line per word (R140, R141) -/

/-- A text without a newline. -/
abbrev NoNewline (text : List Byte) : Prop := 0x0A ∉ text

theorem NoNewline.append {a b : List Byte} (ha : NoNewline a) (hb : NoNewline b) : NoNewline (a ++ b) := fun h =>
  (List.mem_append.mp h).elim ha hb

theorem noNewline_decNat (n : Nat) : NoNewline (decNat n) := fun h => by
  have hdec := isDec_decNat n _ h
  exact absurd hdec.1 (by decide)

theorem noNewline_decInt (z : Int) : NoNewline (decInt z) := by
  rw [decInt]
  split
  · exact NoNewline.append (by decide) (noNewline_decNat _)
  · exact noNewline_decNat _

theorem noNewline_hex8 (v : Word) : NoNewline (hex8 v) := fun h => by
  have hhex := isHex_hex8 v _ h
  exact absurd hhex (by unfold IsHex IsDec; decide)

theorem noNewline_regText (r : RegIdx) : NoNewline (regText r) := NoNewline.append (by decide) (noNewline_decNat _)
theorem noNewline_tab : NoNewline tab := by decide
theorem noNewline_sep : NoNewline sep := by decide

theorem noNewline_layoutRRR (rd rs1 rs2 : RegIdx) : NoNewline (layoutRRR rd rs1 rs2) :=
  ((((noNewline_tab.append (noNewline_regText rd)).append noNewline_sep).append (noNewline_regText rs1)).append
    noNewline_sep).append (noNewline_regText rs2)

theorem noNewline_layoutRRV (r1 r2 : RegIdx) (z : Int) : NoNewline (layoutRRV r1 r2 z) :=
  ((((noNewline_tab.append (noNewline_regText r1)).append noNewline_sep).append (noNewline_regText r2)).append
    noNewline_sep).append (noNewline_decInt z)

theorem noNewline_layoutRV (rd : RegIdx) (z : Int) : NoNewline (layoutRV rd z) :=
  ((noNewline_tab.append (noNewline_regText rd)).append noNewline_sep).append (noNewline_decInt z)

theorem noNewline_layoutMem (r : RegIdx) (z : Int) (rs1 : RegIdx) : NoNewline (layoutMem r z rs1) :=
  (((((noNewline_tab.append (noNewline_regText r)).append noNewline_sep).append (noNewline_decInt z)).append
    (by decide)).append (noNewline_regText rs1)).append (by decide)

theorem noNewline_mnemonic (i : Instr) : NoNewline (ascii (mnemonic i)) := by
  cases i <;> simp [NoNewline, mnemonic, ascii]

theorem noNewline_operandText (i : Instr) : NoNewline (operandText i) := by
  cases i with
  | add | mul | sub | sll | mulh | slt | xor | div | srl | sra | or | rem | and => exact noNewline_layoutRRR _ _ _
  | addi | slti | xori | ori | andi | slli | srli | srai | beq | bne => exact noNewline_layoutRRV _ _ _
  | lb | lh | lw | sb | sh | sw => exact noNewline_layoutMem _ _ _
  | lui | jal => exact noNewline_layoutRV _ _
  | ecall => exact List.not_mem_nil

/-- A rendered line is a text without a newline, closed by one. -/
theorem render_eq_line (w : Word) : ∃ text, NoNewline text ∧ render w = text ++ newline := by
  cases hd : decode w with
  | error r =>
    exact ⟨invalidPrefix ++ hex8 w, NoNewline.append (by decide) (noNewline_hex8 w), render_of_invalid hd⟩
  | ok i =>
    exact ⟨_, (noNewline_mnemonic i).append (noNewline_operandText i), render_of_valid hd⟩

/-- Settles O42: the line is the rendered one, and nothing in it before the closing newline is a newline. -/
theorem disassembleAppendsOneLine : Obligations.DisassembleAppendsOneLine := by
  unfold Obligations.DisassembleAppendsOneLine
  intro w
  obtain ⟨text, htext, hline⟩ := render_eq_line w
  refine ⟨render w, ?_, ?_, fun _ => rfl⟩
  · rw [hline, List.count_append, List.count_eq_zero.mpr htext]
    rfl
  · rw [hline]
    exact List.getLast?_concat ..

/-! ### The layouts (R142 to R150) -/

theorem regText_eq (r : RegIdx) : regText r = ascii ['x'] ++ decInt r.val := by rw [regText, decInt_natCast]

/-- Three registers (R142). -/
theorem layoutRRR_eq (rd rs1 rs2 : RegIdx) : layoutRRR rd rs1 rs2 = ascii ['\t', 'x'] ++ decInt rd.val ++
    ascii [',', ' ', 'x'] ++ decInt rs1.val ++ ascii [',', ' ', 'x'] ++ decInt rs2.val := by
  simp only [layoutRRR, regText_eq, List.append_assoc]
  rfl

/-- Two registers and a value (R143, R144, R147). -/
theorem layoutRRV_eq (r1 r2 : RegIdx) (z : Int) : layoutRRV r1 r2 z = ascii ['\t', 'x'] ++ decInt r1.val ++
    ascii [',', ' ', 'x'] ++ decInt r2.val ++ ascii [',', ' '] ++ decInt z := by
  simp only [layoutRRV, regText_eq, List.append_assoc]
  rfl

/-- A register and an offset with its base (R145, R146). -/
theorem layoutMem_eq (r : RegIdx) (z : Int) (rs1 : RegIdx) : layoutMem r z rs1 = ascii ['\t', 'x'] ++ decInt r.val ++
    ascii [',', ' '] ++ decInt z ++ ascii ['(', 'x'] ++ decInt rs1.val ++ ascii [')'] := by
  simp only [layoutMem, regText_eq, List.append_assoc]
  rfl

/-- A register and a value (R148, R149). -/
theorem layoutRV_eq (rd : RegIdx) (z : Int) :
    layoutRV rd z = ascii ['\t', 'x'] ++ decInt rd.val ++ ascii [',', ' '] ++ decInt z := by
  simp only [layoutRV, regText_eq, List.append_assoc]
  rfl

section
variable (rd rs1 rs2 : RegIdx) (imm : BitVec 12) (shamt : BitVec 5)

theorem operandText_regRegForms : ∀ i ∈ regRegForms rd rs1 rs2, operandText i = layoutRRR rd rs1 rs2 := by
  iterate 13 refine List.forall_mem_cons.mpr ⟨rfl, ?_⟩
  exact List.forall_mem_nil _

theorem operandText_immForms : ∀ i ∈ immForms rd rs1 imm, operandText i = layoutRRV rd rs1 (sg imm) := by
  rw [sg, ← toInt_immI]
  iterate 5 refine List.forall_mem_cons.mpr ⟨rfl, ?_⟩
  exact List.forall_mem_nil _

theorem operandText_shiftForms : ∀ i ∈ shiftForms rd rs1 shamt, operandText i = layoutRRV rd rs1 shamt.toNat := by
  iterate 3 refine List.forall_mem_cons.mpr ⟨rfl, ?_⟩
  exact List.forall_mem_nil _

theorem operandText_loadForms : ∀ i ∈ loadForms rd rs1 imm, operandText i = layoutMem rd (sg imm) rs1 := by
  rw [sg, ← toInt_immI]
  iterate 3 refine List.forall_mem_cons.mpr ⟨rfl, ?_⟩
  exact List.forall_mem_nil _

theorem operandText_storeForms : ∀ p ∈ storeForms rs2 rs1 imm, operandText p.1 = layoutMem rs2 (sg imm) rs1 := by
  rw [sg, ← toInt_immS]
  iterate 3 refine List.forall_mem_cons.mpr ⟨rfl, ?_⟩
  exact List.forall_mem_nil _
end

/-- A valid word's line from its operands. -/
theorem render_of_operandText {w : Word} {i : Instr} {text : List Byte} (hd : decode w = .ok i)
    (h : operandText i = text) : render w = ascii (mnemonic i) ++ text ++ [0x0A] := by
  rw [render_of_valid hd, h]
  rfl

/-- Settles O44: the kinds of a layout print their operands alike, and each layout is the text of its rule. -/
theorem renderLayouts : Obligations.RenderLayouts := by
  unfold Obligations.RenderLayouts
  intro w i hd
  refine ⟨fun rd rs1 rs2 hi => ?_, fun rd rs1 imm hi => ?_, fun rd rs1 shamt hi => ?_, fun rd rs1 imm hi => ?_,
    fun rs2 rs1 imm n hi => ?_, fun rs1 rs2 off hi => ?_, fun rd imm20 hi => ?_, fun rd off hi => ?_, fun hi => ?_⟩
  · rw [render_of_operandText hd (operandText_regRegForms rd rs1 rs2 i hi), layoutRRR_eq]
    simp only [List.append_assoc]
  · rw [render_of_operandText hd (operandText_immForms rd rs1 imm i hi), layoutRRV_eq]
    simp only [List.append_assoc]
  · rw [render_of_operandText hd (operandText_shiftForms rd rs1 shamt i hi), layoutRRV_eq]
    simp only [List.append_assoc]
  · rw [render_of_operandText hd (operandText_loadForms rd rs1 imm i hi), layoutMem_eq]
    simp only [List.append_assoc]
  · rw [render_of_operandText hd (operandText_storeForms rs1 rs2 imm _ hi), layoutMem_eq]
    simp only [List.append_assoc]
  · have hops : operandText i = layoutRRV rs1 rs2 (sg off) := by
      rw [sg, ← toInt_immB]
      rcases hi with rfl | rfl <;> rfl
    rw [render_of_operandText hd hops, layoutRRV_eq]
    simp only [List.append_assoc]
  · subst hi
    rw [render_of_operandText (text := layoutRV rd imm20.toNat) hd rfl, layoutRV_eq]
    simp only [List.append_assoc]
    rfl
  · subst hi
    rw [render_of_operandText (text := layoutRV rd (immJ off).toInt) hd rfl, layoutRV_eq, toInt_immJ]
    simp only [List.append_assoc]
    rfl
  · subst hi
    rw [render_of_operandText hd rfl]
    rfl

end Sys2Proof.Machine
end

section
/-! PROOFS. The canonical form of memory is determined by what it reads as (log 6). -/

namespace Sys2Proof.Machine

namespace Memory

/-- The canonical form of a memory that lists something: a listed byte below a canonical rest. -/
theorem wf_cons {k : Nat} {v : Byte} {m : Memory} (h : Memory.wf ((k, v) :: m)) :
    (∀ c ∈ m, k < c.1) ∧ v ≠ Config.unlistedByte ∧ m.wf := by
  obtain ⟨hp, hn⟩ := h
  obtain ⟨hlt, hp⟩ := List.pairwise_cons.mp hp
  obtain ⟨hv, hn⟩ := List.forall_mem_cons.mp hn
  exact ⟨hlt, hv, hp, hn⟩

theorem read_cons_self (k : Nat) (v : Byte) (m : Memory) : Memory.read ((k, v) :: m) k = v := if_pos rfl

theorem read_cons_of_ne {k a : Nat} (v : Byte) (m : Memory) (h : k ≠ a) : Memory.read ((k, v) :: m) a = m.read a :=
  if_neg h

/-- Below its first address a canonical memory reads as unlisted. -/
theorem read_of_lt_first {k a : Nat} {v : Byte} {m : Memory} (h : Memory.wf ((k, v) :: m)) (ha : a < k) :
    Memory.read ((k, v) :: m) a = Config.unlistedByte :=
  read_of_lt_all _ _ (List.forall_mem_cons.mpr ⟨ha, fun c hc => ha.trans ((wf_cons h).1 c hc)⟩)

/-- The first addresses of two canonical memories that read alike are not apart. -/
theorem not_first_lt_first {k k' : Nat} {v v' : Byte} {m m' : Memory} (h : Memory.wf ((k, v) :: m))
    (h' : Memory.wf ((k', v') :: m')) (hread : ∀ a, Memory.read ((k, v) :: m) a = Memory.read ((k', v') :: m') a) :
    ¬ k < k' := by
  intro hlt
  obtain ⟨-, hv, -⟩ := wf_cons h
  exact hv ((read_cons_self k v m).symm.trans ((hread k).trans (read_of_lt_first h' hlt)))

/-- A canonical memory that reads as unlisted everywhere lists nothing. -/
theorem eq_nil_of_read_unlisted {m : Memory} (h : m.wf) (hread : ∀ a, m.read a = Config.unlistedByte) : m = [] := by
  cases m with
  | nil => rfl
  | cons c m =>
    obtain ⟨k, v⟩ := c
    obtain ⟨-, hv, -⟩ := wf_cons h
    exact absurd ((read_cons_self k v m).symm.trans (hread k)) hv

theorem eq_of_read_eq {m m' : Memory} (h : m.wf) (h' : m'.wf) (hread : ∀ a, m.read a = m'.read a) : m = m' := by
  induction m generalizing m' with
  | nil => exact (eq_nil_of_read_unlisted h' fun a => (hread a).symm).symm
  | cons c m ih =>
    cases m' with
    | nil => exact eq_nil_of_read_unlisted h hread
    | cons c' m' =>
      obtain ⟨k, v⟩ := c
      obtain ⟨k', v'⟩ := c'
      obtain rfl : k = k' := Nat.le_antisymm (Nat.le_of_not_lt (not_first_lt_first h' h fun a => (hread a).symm))
        (Nat.le_of_not_lt (not_first_lt_first h h' hread))
      obtain rfl : v = v' := (read_cons_self k v m).symm.trans ((hread k).trans (read_cons_self k v' m'))
      obtain ⟨hlt, -, hm⟩ := wf_cons h
      obtain ⟨hlt', -, hm'⟩ := wf_cons h'
      have htail : m = m' := ih hm hm' fun a => by
        by_cases ha : k = a
        · subst ha
          rw [read_of_lt_all m k hlt, read_of_lt_all m' k hlt']
        · rw [← read_cons_of_ne v m ha, hread a, read_cons_of_ne v m' ha]
      rw [htail]

end Memory

/-- Settles O57: the first address and its byte are read off, and the rests read alike. -/
theorem memoryCanonical : Obligations.MemoryCanonical := by
  unfold Obligations.MemoryCanonical
  exact fun m m' h h' hread => Memory.eq_of_read_eq h h' hread

end Sys2Proof.Machine
end
